-- ==== Sys2Proof/Word.lean ====
section
/-! DEFINITION. The value types of the engine (00_scope.md section 6, 30_encoding.md R72, R74): plain names for the bit vectors
and fixed-length arrays the spec's rules speak of. -/

namespace Sys2Proof

/-- A byte: 8 bits (00_scope.md section 6). -/
abbrev Byte := BitVec 8

/-- A word: 32 bits, unsigned; `+` on it is the spec's `+32`, addition modulo 2^32 (R7 `WORD`, R87). -/
abbrev Word := BitVec 32

/-- A dword: 64 bits, unsigned; `+` on it is the spec's `+64` (R7 `BITLEN_BITS`). -/
abbrev Dword := BitVec 64

/-- The spec's `State`: 8 words, word 0 is the source's `a` (R11, R74). -/
abbrev HashState := Vector Word 8

/-- A Block: exactly 64 bytes, in message order (R7 `BLOCK_BYTES`, R74). -/
abbrev Block := Vector Byte 64

/-- A Digest: 32 bytes (R7 `DIGEST_BYTES`, R74). -/
abbrev Digest := Vector Byte 32

/-- A vector register: eight lanes of one word, element `l` is lane `l` (R24, R122; log 12). -/
abbrev VReg := Vector Word 8

/-- The 8 x 8 word matrix of the transposer, `m[i][j]` (R26, R74). -/
abbrev Matrix := Vector (Vector Word 8) 8

end Sys2Proof
end

