-- ==== Sys2Proof/Config.lean ====
section
/-! DEFINITION. What is fixed for the machine: the parameters of 00_scope.md R7 and R8, and the one free value of the model. -/

namespace Sys2Proof.Config

/-- `LEN_MAX` = 2^24 - 1, the largest payload of one command (R8, R63). -/
def lenMax : Nat := 16777215

/-- FREE VALUE (log 2). What a working register holds at a command boundary: "The working state has no specified value at any
command boundary" (R33, U8). It has no body, so nothing can be proved of the word that draw number `draw` leaves in the working
word number `idx`. DESIGN CHOICE (log 21): it takes no number of an engine, so two engines that have drawn equally often hold equal
free words, where the spec does not say whether the unspecified registers of two engines agree. -/
opaque freeWord (draw idx : Nat) : Word

end Sys2Proof.Config
end

