-- ==== Sys2Proof/Machine/Bytes.lean ====
section
/-! DEFINITION. Byte order: how bytes become words and words bytes, big-endian in every place (20_memory.md R42 to R45). -/

namespace Sys2Proof.Machine

/-- `be32` of four bytes: the first is the most significant (R42). -/
def be32 (b0 b1 b2 b3 : Byte) : Word := b0 ++ b1 ++ b2 ++ b3

/-- `to_be32`: the four bytes of a word, most significant first (R43). -/
def toBe32 (w : Word) : List Byte :=
  [w.extractLsb' 24 8, w.extractLsb' 16 8, w.extractLsb' 8 8, w.extractLsb' 0 8]

/-- `to_be64`: the eight bytes of a dword, most significant first (R44). -/
def toBe64 (d : Dword) : List Byte :=
  [d.extractLsb' 56 8, d.extractLsb' 48 8, d.extractLsb' 40 8, d.extractLsb' 32 8,
   d.extractLsb' 24 8, d.extractLsb' 16 8, d.extractLsb' 8 8, d.extractLsb' 0 8]

/-- A frame header: 8 bits, then a 24-bit length, as one word sent most significant byte first (R61, R63, R66). -/
def headerBytes (top : Byte) (len : Nat) : List Byte :=
  toBe32 (top ++ BitVec.ofNat 24 len)

/-- Byte `i` of a byte sequence. Every use reads below the length a command has checked, so the value past the end is never
an operand (log 19). -/
def byteAt (p : List Byte) (i : Nat) : Byte := p.getD i 0

/-- The word at byte offset `off` of a byte sequence (R42, R45). -/
def wordAt (p : List Byte) (off : Nat) : Word :=
  be32 (byteAt p off) (byteAt p (off + 1)) (byteAt p (off + 2)) (byteAt p (off + 3))

/-- `n` zero bytes (00_scope.md section 6, `zeros(n)`). -/
def zeros (n : Nat) : List Byte := List.replicate n 0

end Sys2Proof.Machine
end

