-- ==== Sys2Proof/Syntax.lean ====
section
/-! DEFINITION. The commands as syntax: one constructor per row of spec/opcode_table.json (30_encoding.md R64).
A command is an opcode and its payload; the payload "is the only source of operands" (R62). The payload is kept whole, whatever
its length, because an assigned opcode with a length its format does not allow is still that command, which then raises its own
error (R65, R103 and its like; log 13). -/

namespace Sys2Proof

/-- The eight commands, each with its `PAYLOAD` (R62, R64). -/
inductive Instr where
  | init (payload : List Byte)
  | update (payload : List Byte)
  | final (payload : List Byte)
  | xform (payload : List Byte)
  | xform8 (payload : List Byte)
  | trn (payload : List Byte)
  | batch8 (payload : List Byte)
  | hex (payload : List Byte)
  deriving DecidableEq, Repr

/-- `PAYLOAD` (R62). -/
def Instr.payload : Instr → List Byte
  | .init p => p
  | .update p => p
  | .final p => p
  | .xform p => p
  | .xform8 p => p
  | .trn p => p
  | .batch8 p => p
  | .hex p => p

/-- The formats of R65, which say what `LEN` must be. -/
inductive Format where
  | n
  | v
  | f32
  | f96
  | f256
  | f512
  | f768
  deriving DecidableEq, Repr

/-- The format of each command (R64, R65). -/
def Instr.format : Instr → Format
  | .init _ => .n
  | .update _ => .v
  | .final _ => .n
  | .xform _ => .f96
  | .xform8 _ => .f768
  | .trn _ => .f256
  | .batch8 _ => .f512
  | .hex _ => .f32

end Sys2Proof
end

