-- ==== Sys2Proof/WellFormed.lean ====
section
/-! DEFINITION. Which commands a frame can carry, and which of those have the length their format asks for (30_encoding.md R65,
R70). -/

namespace Sys2Proof

/-- The `LEN` a format requires; none for the variable format (R65). -/
def Format.requiredLen : Format → Option Nat
  | .n => some 0
  | .v => none
  | .f32 => some 32
  | .f96 => some 96
  | .f256 => some 256
  | .f512 => some 512
  | .f768 => some 768

/-- The payload's length fits the 24-bit `LEN` field, so a frame can carry the command (R63, R70). -/
def Instr.encodable (i : Instr) : Bool :=
  decide (i.payload.length ≤ Config.lenMax)

/-- A well-formed command: a frame can carry it and `LEN` is what its format requires (R65, R73). -/
def Instr.wellFormed (i : Instr) : Bool :=
  i.encodable &&
    match i.format.requiredLen with
    | some n => decide (i.payload.length = n)
    | none => true

end Sys2Proof
end

