-- ==== Sys2Proof/Decode.lean ====
section
/-! DEFINITION. The wire decoder, total on any bytes (30_encoding.md R73), and after it the encoder. The decoder finds the length
of a frame "from `LEN` alone, before and without looking at `OPC`" (R68). -/

namespace Sys2Proof

open Sys2Proof.Machine (be32 headerBytes)

/-- What the decoder finds at the front of a byte stream. -/
inductive Decoded where
  /-- The frame is incomplete: at least `missing` more bytes must come (exactly so once the header is in) (R71). -/
  | wait (missing : Nat)
  /-- A complete frame with a reserved opcode, and the bytes after it (R69). -/
  | reserved (opc : Byte) (len : Nat) (rest : List Byte)
  /-- A complete frame with an assigned opcode, and the bytes after it (R64). -/
  | command (i : Instr) (rest : List Byte)
  deriving DecidableEq, Repr

/-- `OPC` = `HDR[31:24]` (R63). -/
def headerOpc (hdr : Word) : Byte := hdr.extractLsb' 24 8

/-- `LEN` = `HDR[23:0]`, zero-extended to a natural number (R63, R70). -/
def headerLen (hdr : Word) : Nat := (hdr.extractLsb' 0 24).toNat

/-- The opcode map; every other opcode is reserved (R64, R69). -/
def ofOpcode (opc : Byte) (payload : List Byte) : Option Instr :=
  if opc = 0x01 then some (.init payload)
  else if opc = 0x02 then some (.update payload)
  else if opc = 0x03 then some (.final payload)
  else if opc = 0x10 then some (.xform payload)
  else if opc = 0x11 then some (.xform8 payload)
  else if opc = 0x12 then some (.trn payload)
  else if opc = 0x13 then some (.batch8 payload)
  else if opc = 0x20 then some (.hex payload)
  else none

/-- The decoder once the header and the bytes after it are known (R61, R62, R68, R71). -/
def decodeBody (hdr : Word) (tail : List Byte) : Decoded :=
  let len := headerLen hdr
  if tail.length < len then .wait (len - tail.length)
  else
    match ofOpcode (headerOpc hdr) (tail.take len) with
    | some i => .command i (tail.drop len)
    | none => .reserved (headerOpc hdr) len (tail.drop len)

/-- The wire decoder: total on any byte stream (R61, R73). -/
def decode : List Byte → Decoded
  | b0 :: b1 :: b2 :: b3 :: tail => decodeBody (be32 b0 b1 b2 b3) tail
  | short => .wait (4 - short.length)

/-- The opcode of each command (R64). -/
def Instr.opcode : Instr → Byte
  | .init _ => 0x01
  | .update _ => 0x02
  | .final _ => 0x03
  | .xform _ => 0x10
  | .xform8 _ => 0x11
  | .trn _ => 0x12
  | .batch8 _ => 0x13
  | .hex _ => 0x20

/-- The encoder: header, then payload (R61, R63). -/
def encode (i : Instr) : List Byte :=
  headerBytes i.opcode i.payload.length ++ i.payload

/-- A frame with any opcode and payload, reserved opcodes too (R61). -/
def frameBytes (opc : Byte) (payload : List Byte) : List Byte :=
  headerBytes opc payload.length ++ payload

/-- Byte `j` of the words of `w`: word `k` is bits `[32k+31 : 32k]`, sent most significant byte first (R61;
spec/opcode_table.json `header_byte_order`). -/
def tableByte (w j : Nat) : Byte :=
  BitVec.ofNat 8 (w / 2 ^ (32 * (j / 4) + 8 * (3 - j % 4)))

/-- The frame whose words, numbered as spec/opcode_table.json numbers them, are the low `nbits` bits of `w`, all higher bits 0: the
header, then the `LEN` payload bytes it announces. -/
def tableFrame (nbits w : Nat) : List Byte :=
  let v := w % 2 ^ nbits
  let len := v % 2 ^ 24
  (List.range (4 + len)).map (tableByte v)

/-- The instruction the decoder reads from a word of the opcode table; none where it finds a reserved opcode. -/
def decodeTableWord (nbits w : Nat) : Option Instr :=
  match decode (tableFrame nbits w) with
  | .command i _ => some i
  | .reserved _ _ _ => none
  | .wait _ => none

end Sys2Proof
end

