-- ==== Sys2Proof/Machine/Rom.lean ====
section
/-! DEFINITION. The two constant tables, read-only (10_state.md R27, R28). The values are the spec's, which marks them "from general
knowledge, not in source" (log 10). -/

namespace Sys2Proof.Machine

/-- Row `r` of the round-constant table as R27 prints it: `K[8r]` to `K[8r+7]` from left to right, so `K[8r]` is the top word of the
row's 256 bits. -/
def kRow : BitVec 3 → BitVec 256
  | 0 => 0x428a2f9871374491b5c0fbcfe9b5dba53956c25b59f111f1923f82a4ab1c5ed5
  | 1 => 0xd807aa9812835b01243185be550c7dc372be5d7480deb1fe9bdc06a7c19bf174
  | 2 => 0xe49b69c1efbe47860fc19dc6240ca1cc2de92c6f4a7484aa5cb0a9dc76f988da
  | 3 => 0x983e5152a831c66db00327c8bf597fc7c6e00bf3d5a7914706ca635114292967
  | 4 => 0x27b70a852e1b21384d2c6dfc53380d13650a7354766a0abb81c2c92e92722c85
  | 5 => 0xa2bfe8a1a81a664bc24b8b70c76c51a3d192e819d6990624f40e3585106aa070
  | 6 => 0x19a4c1161e376c082748774c34b0bcb5391c0cb34ed8aa4a5b9cca4f682e6ff3
  | 7 => 0x748f82ee78a5636f84c878148cc7020890befffaa4506cebbef9a3f7c67178f2

/-- `K[t]`, indexed by the 6-bit round index: the upper three bits of `t` select the row of R27, the lower three the column (R16, R27). -/
def K (t : BitVec 6) : Word :=
  (kRow (t.extractLsb' 3 3)).extractLsb' (32 * (7 - (t.extractLsb' 0 3).toNat)) 32

/-- Initial-value ROM `IV[0..7]` (R28). -/
def IV : HashState := #v[
  0x6a09e667, 0xbb67ae85, 0x3c6ef372, 0xa54ff53a, 0x510e527f, 0x9b05688c, 0x1f83d9ab, 0x5be0cd19]

end Sys2Proof.Machine
end

