-- ==== Sys2Proof/Machine/State.lean ====
section
/-! DEFINITION. The state of one engine instance as plain data (10_state.md R10 to R36), its two stops, and the state after reset
(R32). -/

namespace Sys2Proof.Machine

/-- The byte space formed by `BUF` (0 to 63) and `PADX` (64 to 127): address and byte, addresses strictly rising (R22, R23, R46).
An address that is not listed holds no value (log 3). -/
abbrev Memory := List Host.Cell

/-- The context: the state that survives from one command to the next (R10 (a)). -/
structure Context where
  /-- `H[0..7]` (R11). -/
  h : HashState
  /-- `BUF` and `PADX` (R22, R23). -/
  mem : Memory
  /-- `BUFLEN` (R20). -/
  bufLen : BitVec 7
  /-- `BITLEN` (R21). -/
  bitLen : Dword
  deriving DecidableEq, Repr

/-- The registers of the scalar transform unit (R12, R14, R15, R16). -/
structure ScalarUnit where
  a : Word
  b : Word
  c : Word
  d : Word
  e : Word
  f : Word
  g : Word
  h : Word
  /-- `T1` (R14). -/
  t1 : Word
  /-- `T2` (R14). -/
  t2 : Word
  /-- `W[0..63]` (R15). -/
  w : Vector Word 64
  /-- The round index `t` (R16). -/
  t : BitVec 6
  deriving DecidableEq, Repr

/-- The registers of the 8-way unit (R24, R25), with the one round index of all lanes (R16, R125). -/
structure VectorUnit where
  /-- `VS[0..7]` (R24). -/
  vs : Vector VReg 8
  /-- `VW[0..63]` (R25). -/
  vw : Vector VReg 64
  /-- `VT1` (R25). -/
  vt1 : VReg
  /-- `VT2` (R25). -/
  vt2 : VReg
  /-- `VH[0..7]` (R25). -/
  vh : Vector VReg 8
  /-- The round index `t` (R16). -/
  t : BitVec 6
  deriving DecidableEq, Repr

/-- One engine instance (R10). -/
structure State where
  /-- The context (R10 (a)). -/
  ctx : Context
  /-- The scalar unit's working registers (R10 (b)). -/
  scalar : ScalarUnit
  /-- The 8-way unit's working registers (R10 (b)). -/
  vector : VectorUnit
  /-- The transposer matrix `TM` (R26). -/
  tm : Matrix
  /-- Command bytes the engine has not yet consumed, oldest first (R29). -/
  input : List Byte
  /-- Response bytes the host has not yet taken, oldest first (R29). -/
  output : List Byte
  /-- The reset input, as the engine samples it before its next step (R200; log 5). -/
  resetPin : Bool
  /-- The model's own counter: how many free values have been drawn (log 2). -/
  draws : Nat
  deriving DecidableEq, Repr

/-- Why the machine stops. Both stops are of the model, "a model may treat a violation as a fault, it cannot happen in a run"
(R46); no state that meets the context invariants reaches one. -/
inductive Fault where
  /-- Raised by `memRead` and `memWrite` (UPDATE, FINAL) for an access past address 127 (R46). Safe: the machine stops. -/
  | memRange (addr n : Nat)
  /-- Raised by `memRead` (UPDATE, FINAL) for a byte not written since the buffer was last emptied (R22, R46, U9). Safe: the
  machine stops. -/
  | memUnwritten (addr : Nat)
  deriving DecidableEq, Repr

/-- No meaning for an instruction. -/
inductive Refusal where
  /-- Raised by `exec` for an instruction whose meaning is not written yet; every instruction has its meaning, so nothing raises
  it. Safe. -/
  | notModelled (mnemonic : String)
  deriving DecidableEq, Repr

/-- The initial context: `H = IV`, `BUFLEN = 0`, `BITLEN = 0`, the buffer empty (R32, R19 `Empty`). -/
def Context.initial : Context :=
  { h := IV, mem := [], bufLen := 0, bitLen := 0 }

/-- A scalar unit with every register zero: the model's choice for reset, where the spec gives no value (log 1). -/
def ScalarUnit.zero : ScalarUnit :=
  { a := 0, b := 0, c := 0, d := 0, e := 0, f := 0, g := 0, h := 0, t1 := 0, t2 := 0,
    w := Vector.replicate 64 0, t := 0 }

/-- A vector register with every lane zero. -/
def zeroVReg : VReg := Vector.replicate 8 0

/-- An 8-way unit with every register zero: the model's choice for reset (log 1). -/
def VectorUnit.zero : VectorUnit :=
  { vs := Vector.replicate 8 zeroVReg, vw := Vector.replicate 64 zeroVReg, vt1 := zeroVReg,
    vt2 := zeroVReg, vh := Vector.replicate 8 zeroVReg, t := 0 }

/-- The machine right after reset (R32): the context initial, both streams empty; the working registers, to which the spec gives no
value, are zero (log 1). -/
def State.reset : State :=
  { ctx := Context.initial, scalar := ScalarUnit.zero, vector := VectorUnit.zero,
    tm := Vector.replicate 8 zeroVReg, input := [], output := [], resetPin := false, draws := 0 }

end Sys2Proof.Machine
end

