-- ==== Sys2Proof/Machine/Operands.lean ====
section
/-! DEFINITION. Every operand and result layout of a payload or a response (30_encoding.md R72; 44_digest_encoding.md R166, R167).
All offsets are byte offsets. -/

namespace Sys2Proof.Machine

/-- `DECODE_STATE` of the 32 bytes at `off`: word `j` at offset `4j`, big-endian (R72, R167). -/
def stateAt (p : List Byte) (off : Nat) : HashState :=
  Vector.ofFn fun j : Fin 8 => wordAt p (off + 4 * j.val)

/-- The Block at `off`: 64 bytes in message order, "not reordered in any way" (R72). -/
def blockAt (p : List Byte) (off : Nat) : Block :=
  Vector.ofFn fun k : Fin 64 => byteAt p (off + k.val)

/-- The Matrix at `off`: word `m[i][j]` at offset `4 * (8i + j)` (R72). -/
def matrixAt (p : List Byte) (off : Nat) : Matrix :=
  Vector.ofFn fun i : Fin 8 => Vector.ofFn fun j : Fin 8 => wordAt p (off + 4 * (8 * i.val + j.val))

/-- The 8 States at `off`: State of lane `l` at offset `32l` (R72). -/
def statesAt (p : List Byte) (off : Nat) : Vector HashState 8 :=
  Vector.ofFn fun l : Fin 8 => stateAt p (off + 32 * l.val)

/-- The 8 Blocks at `off`: Block of lane `l` at offset `64l` (R72). -/
def blocksAt (p : List Byte) (off : Nat) : Vector Block 8 :=
  Vector.ofFn fun l : Fin 8 => blockAt p (off + 64 * l.val)

/-- The Digest at `off`: 32 bytes in order (R72). -/
def digestAt (p : List Byte) (off : Nat) : Digest :=
  Vector.ofFn fun k : Fin 32 => byteAt p (off + k.val)

/-- `ENCODE`: the eight words, word 0 first, each most significant byte first (R166). -/
def encodeState (st : HashState) : List Byte :=
  st.toList.flatMap toBe32

/-- Eight States, lane 0 first (R67, R72). -/
def encodeStates (sts : Vector HashState 8) : List Byte :=
  sts.toList.flatMap encodeState

/-- A Matrix: rows in order, row `i` the 32 bytes of its words (R72). -/
def encodeMatrix (m : Matrix) : List Byte :=
  m.toList.flatMap encodeState

end Sys2Proof.Machine
end

