-- ==== Sys2Proof/Machine/Transform.lean ====
section
/-! DEFINITION. The scalar block transform unit (40_scalar_transform.md R86 to R105), as operations on its working registers. The
formulas are the spec's, which marks them "from general knowledge, not in source" (log 10). -/

namespace Sys2Proof.Machine

/-- `ROTR(n, x)` (R88). -/
def rotr (n : Nat) (x : Word) : Word := x.rotateRight n

/-- `SHR(n, x)` (R88). -/
def shr (n : Nat) (x : Word) : Word := x >>> n

/-- Choice, `CH` (R89). -/
def ch (x y z : Word) : Word := (x &&& y) ^^^ (~~~x &&& z)

/-- Majority, `MAJ` (R90). -/
def maj (x y z : Word) : Word := (x &&& y) ^^^ (x &&& z) ^^^ (y &&& z)

/-- `BSIG0` (R91). -/
def bsig0 (x : Word) : Word := rotr 2 x ^^^ rotr 13 x ^^^ rotr 22 x

/-- `BSIG1` (R91). -/
def bsig1 (x : Word) : Word := rotr 6 x ^^^ rotr 11 x ^^^ rotr 25 x

/-- `SSIG0` (R92). -/
def ssig0 (x : Word) : Word := rotr 7 x ^^^ rotr 18 x ^^^ shr 3 x

/-- `SSIG1` (R92). -/
def ssig1 (x : Word) : Word := rotr 17 x ^^^ rotr 19 x ^^^ shr 10 x

/-- `WORDS(block)`: the 16 big-endian 32-bit groups of a block (R94). -/
def blockWords (b : Block) : Vector Word 16 :=
  Vector.ofFn fun j : Fin 16 => wordAt b.toList (4 * j.val)

/-- Reads schedule register `W[t]`; the rules read `t` from 0 to 63 only. -/
def ScalarUnit.sched (u : ScalarUnit) (t : Nat) : Word := u.w.getD t 0

/-- Step (1): `W[0..15] <- WORDS(block)` (R93, R96). -/
def ScalarUnit.loadBlock (u : ScalarUnit) (b : Block) : ScalarUnit :=
  { u with w := Vector.ofFn fun i : Fin 64 =>
      if h : i.val < 16 then (blockWords b)[i.val] else u.w[i.val] }

/-- One schedule step: writes `W[t]` from four earlier words (R97). -/
def ScalarUnit.schedStep (u : ScalarUnit) (t : Nat) : ScalarUnit :=
  let x := ssig1 (u.sched (t - 2)) + u.sched (t - 7) + ssig0 (u.sched (t - 15)) + u.sched (t - 16)
  { u with w := u.w.setIfInBounds t x }

/-- Step (2), the first `n` of its 48 steps, `t = 16, 17, ...` in ascending order (R93, R97). -/
def ScalarUnit.expand : Nat → ScalarUnit → ScalarUnit
  | 0, u => u
  | n + 1, u => (ScalarUnit.expand n u).schedStep (16 + n)

/-- Step (3): the working registers take the input state, and the round index starts at 0 (R98, R99). -/
def ScalarUnit.loadState (u : ScalarUnit) (st : HashState) : ScalarUnit :=
  { u with a := st[0], b := st[1], c := st[2], d := st[3], e := st[4], f := st[5], g := st[6],
           h := st[7], t := 0 }

/-- One round at round index `t`, all eight registers written from the old values (R95); then the index advances (R16). -/
def ScalarUnit.round (u : ScalarUnit) : ScalarUnit :=
  let t1 := u.h + bsig1 u.e + ch u.e u.f u.g + K u.t + u.w[u.t.toNat]'(u.t.isLt)
  let t2 := bsig0 u.a + maj u.a u.b u.c
  { u with t1 := t1, t2 := t2, h := u.g, g := u.f, f := u.e, e := u.d + t1, d := u.c, c := u.b,
           b := u.a, a := t1 + t2, t := u.t + 1 }

/-- Step (4), the first `n` of its 64 rounds (R93, R99). -/
def ScalarUnit.rounds : Nat → ScalarUnit → ScalarUnit
  | 0, u => u
  | n + 1, u => (ScalarUnit.rounds n u).round

/-- Steps (1) to (4) of one transform, from whatever the unit held before (R93). -/
def ScalarUnit.run (u : ScalarUnit) (st : HashState) (b : Block) : ScalarUnit :=
  (((u.loadBlock b).expand 48).loadState st).rounds 64

/-- Step (5), the final addition of the input state (R100). -/
def ScalarUnit.result (u : ScalarUnit) (st : HashState) : HashState :=
  #v[st[0] + u.a, st[1] + u.b, st[2] + u.c, st[3] + u.d,
     st[4] + u.e, st[5] + u.f, st[6] + u.g, st[7] + u.h]

/-- `TRANSFORM(state, block)`, the pure function: the result of a unit that started from zero registers (R86, R101). -/
def transform (st : HashState) (b : Block) : HashState :=
  (ScalarUnit.zero.run st b).result st

/-- `FOLD` over the first `n` blocks of a byte sequence (R105). -/
def foldBlocks : Nat → HashState → List Byte → HashState
  | 0, st, _ => st
  | n + 1, st, bytes => foldBlocks n (transform st (blockAt bytes 0)) (bytes.drop 64)

/-- `FOLD(state, bytes)`, for a byte sequence whose length is a multiple of 64 (R105). -/
def fold (st : HashState) (bytes : List Byte) : HashState :=
  foldBlocks (bytes.length / 64) st bytes

end Sys2Proof.Machine
end

