-- ==== Sys2Proof/Machine/Lanes.lean ====
section
/-! DEFINITION. The lane transpose unit (41_lane_transpose.md R111 to R117) and the 8-way transform unit (42_transform8.md R121 to
R133), as operations on their working registers. -/

namespace Sys2Proof.Machine

/-- `TRANSPOSE(m)`: `r[i][j] = m[j][i]` (R111). -/
def transpose (m : Matrix) : Matrix :=
  Vector.ofFn fun i : Fin 8 => Vector.ofFn fun j : Fin 8 => m[j.val][i.val]

/-- `PACK_STATES`: vector `j` has word `j` of lane `l` in lane `l` (R116). -/
def packStates (states : Vector HashState 8) : Vector VReg 8 := transpose states

/-- `UNPACK_STATES`: State `l` has lane `l` of vector `j` as word `j` (R116). -/
def unpackStates (vs : Vector VReg 8) : Vector HashState 8 := transpose vs

/-- The first halves of the blocks as a matrix, `M0[l][j]` = word `j` of block `l` (R117). -/
def firstHalves (blocks : Vector Block 8) : Matrix :=
  Vector.ofFn fun l : Fin 8 => Vector.ofFn fun j : Fin 8 => (blockWords blocks[l.val])[j.val]

/-- The second halves, `M1[l][j]` = word `8 + j` of block `l` (R117). -/
def secondHalves (blocks : Vector Block 8) : Matrix :=
  Vector.ofFn fun l : Fin 8 => Vector.ofFn fun j : Fin 8 => (blockWords blocks[l.val])[8 + j.val]

/-- `PACK_BLOCKS`: two transposes, one per half of the blocks (R117). -/
def packBlocks (blocks : Vector Block 8) : Vector VReg 16 :=
  transpose (firstHalves blocks) ++ transpose (secondHalves blocks)

/-- The 256 bits of a vector register: lane `l` is bits `[32l+31 : 32l]` (R24; log 12). -/
def VReg.bits (v : VReg) : BitVec 256 :=
  v[7] ++ v[6] ++ v[5] ++ v[4] ++ v[3] ++ v[2] ++ v[1] ++ v[0]

/-- A scalar operation of one operand, "applied independently per lane" (R122). -/
def lanes1 (f : Word → Word) (x : VReg) : VReg := Vector.ofFn fun l : Fin 8 => f x[l.val]

/-- A scalar operation of two operands, "applied independently per lane" (R122). -/
def lanes2 (f : Word → Word → Word) (x y : VReg) : VReg :=
  Vector.ofFn fun l : Fin 8 => f x[l.val] y[l.val]

/-- `VAND` (R122). -/
def vand (x y : VReg) : VReg := lanes2 (fun a b => a &&& b) x y

/-- `VOR` (R122). -/
def vor (x y : VReg) : VReg := lanes2 (fun a b => a ||| b) x y

/-- `VXOR` (R122). -/
def vxor (x y : VReg) : VReg := lanes2 (fun a b => a ^^^ b) x y

/-- `VNOT` (R122). -/
def vnot (x : VReg) : VReg := lanes1 (fun a => ~~~a) x

/-- `VROTR` (R122). -/
def vrotr (n : Nat) (x : VReg) : VReg := lanes1 (rotr n) x

/-- `VSHR` (R122). -/
def vshr (n : Nat) (x : VReg) : VReg := lanes1 (shr n) x

/-- `VADD`: "no carry passes from one lane to the next" (R122). -/
def vadd (x y : VReg) : VReg := lanes2 (fun a b => a + b) x y

/-- `VBCAST` (R122). -/
def vbcast (w : Word) : VReg := Vector.replicate 8 w

/-- `VCH` (R123). -/
def vch (x y z : VReg) : VReg := vxor (vand x y) (vand (vnot x) z)

/-- `VMAJ` (R123). -/
def vmaj (x y z : VReg) : VReg := vxor (vxor (vand x y) (vand x z)) (vand y z)

/-- `VBSIG0` (R123). -/
def vbsig0 (x : VReg) : VReg := vxor (vxor (vrotr 2 x) (vrotr 13 x)) (vrotr 22 x)

/-- `VBSIG1` (R123). -/
def vbsig1 (x : VReg) : VReg := vxor (vxor (vrotr 6 x) (vrotr 11 x)) (vrotr 25 x)

/-- `VSSIG0` (R123). -/
def vssig0 (x : VReg) : VReg := vxor (vxor (vrotr 7 x) (vrotr 18 x)) (vshr 3 x)

/-- `VSSIG1` (R123). -/
def vssig1 (x : VReg) : VReg := vxor (vxor (vrotr 17 x) (vrotr 19 x)) (vshr 10 x)

/-- Reads vector schedule register `VW[t]`; the rules read `t` from 0 to 63 only. -/
def VectorUnit.sched (v : VectorUnit) (t : Nat) : VReg := v.vw.getD t zeroVReg

/-- Entry, blocks: `VW[0..15] <- PACK_BLOCKS(blocks)` (R128). -/
def VectorUnit.loadBlocks (v : VectorUnit) (blocks : Vector Block 8) : VectorUnit :=
  { v with vw := Vector.ofFn fun i : Fin 64 =>
      if h : i.val < 16 then (packBlocks blocks)[i.val] else v.vw[i.val] }

/-- Entry, states: `VH <- PACK_STATES(states)`, then `VS <- VH` (R129); the round index starts at 0 (R130). -/
def VectorUnit.loadStates (v : VectorUnit) (states : Vector HashState 8) : VectorUnit :=
  { v with vh := packStates states, vs := packStates states, t := 0 }

/-- One schedule step on vectors (R130). -/
def VectorUnit.schedStep (v : VectorUnit) (t : Nat) : VectorUnit :=
  let x := vadd (vadd (vssig1 (v.sched (t - 2))) (v.sched (t - 7)))
                (vadd (vssig0 (v.sched (t - 15))) (v.sched (t - 16)))
  { v with vw := v.vw.setIfInBounds t x }

/-- The first `n` of the 48 schedule steps on vectors (R130). -/
def VectorUnit.expand : Nat → VectorUnit → VectorUnit
  | 0, v => v
  | n + 1, v => (VectorUnit.expand n v).schedStep (16 + n)

/-- One round on vectors: one round index and one broadcast constant for all lanes (R125, R130). -/
def VectorUnit.round (v : VectorUnit) : VectorUnit :=
  let vt1 := vadd (vadd (vadd v.vs[7] (vbsig1 v.vs[4])) (vch v.vs[4] v.vs[5] v.vs[6]))
                  (vadd (vbcast (K v.t)) (v.vw[v.t.toNat]'(v.t.isLt)))
  let vt2 := vadd (vbsig0 v.vs[0]) (vmaj v.vs[0] v.vs[1] v.vs[2])
  { v with vt1 := vt1, vt2 := vt2, t := v.t + 1,
           vs := #v[vadd vt1 vt2, v.vs[0], v.vs[1], v.vs[2], vadd v.vs[3] vt1, v.vs[4], v.vs[5], v.vs[6]] }

/-- The first `n` of the 64 rounds on vectors (R130). -/
def VectorUnit.rounds : Nat → VectorUnit → VectorUnit
  | 0, v => v
  | n + 1, v => (VectorUnit.rounds n v).round

/-- The final addition on vectors: `VS[j] <- VADD(VH[j], VS[j])` (R131). -/
def VectorUnit.addInput (v : VectorUnit) : VectorUnit :=
  { v with vs := Vector.ofFn fun j : Fin 8 => vadd v.vh[j.val] v.vs[j.val] }

/-- The construction up to the exit transpose, from whatever the unit held before (R127, R133). -/
def VectorUnit.run (v : VectorUnit) (states : Vector HashState 8) (blocks : Vector Block 8) : VectorUnit :=
  ((((v.loadBlocks blocks).loadStates states).expand 48).rounds 64).addInput

/-- `TRANSFORM8(states, blocks)`, the pure function: the construction of R133 on a unit that started from zero registers. -/
def transform8 (states : Vector HashState 8) (blocks : Vector Block 8) : Vector HashState 8 :=
  unpackStates (VectorUnit.zero.run states blocks).vs

end Sys2Proof.Machine
end

