-- ==== Sys2Proof/Machine/Ops.lean ====
section
/-! DEFINITION. The operations the meanings share: the byte space (20_memory.md R46), the response and the error (30_encoding.md R66,
60_exceptions.md R182), the use of the transform units, and reset (70_reset_and_hazards.md R200). There is no return from an error:
"There is no handler, so there is no return instruction" (R183). -/

namespace Sys2Proof.Machine

/-! ### The byte space `BUF` and `PADX` -/

/-- The size of the byte space: `BUF` 0 to 63, `PADX` 64 to 127 (R46). -/
def memSize : Nat := 128

/-- The byte at an address; none where nothing is listed (R22, U9; log 3). -/
def Memory.get? : Memory → Nat → Option Byte
  | [], _ => none
  | (k, b) :: m, a => if k = a then some b else Memory.get? m a

/-- Writes one byte, keeping the addresses strictly rising. -/
def Memory.set : Memory → Nat → Byte → Memory
  | [], a, x => [(a, x)]
  | (k, b) :: m, a, x =>
    if a < k then (a, x) :: (k, b) :: m
    else if a = k then (a, x) :: m
    else (k, b) :: Memory.set m a x

/-- Writes bytes upward from an address. -/
def Memory.setBytes : Memory → Nat → List Byte → Memory
  | m, _, [] => m
  | m, a, x :: xs => Memory.setBytes (m.set a x) (a + 1) xs

/-- The canonical form: addresses strictly rising, all inside the byte space (R46). An unlisted address has no value, so no entry
can equal what one reads as. -/
def Memory.wf (m : Memory) : Bool :=
  decide ((m.map Prod.fst).Pairwise (· < ·)) && m.all fun c => decide (c.1 < memSize)

/-- The bytes from an address upward; a fault at the first address that holds none. -/
def Memory.getBytes (m : Memory) : Nat → Nat → Except Fault (List Byte)
  | _, 0 => .ok []
  | a, n + 1 =>
    match m.get? a with
    | none => .error (.memUnwritten a)
    | some b =>
      match m.getBytes (a + 1) n with
      | .error f => .error f
      | .ok bs => .ok (b :: bs)

/-- `MemRead(addr, n)`: lowest address first; defined only for `addr + n <= 128` and for written bytes (R46). -/
def memRead (m : Memory) (addr n : Nat) : Except Fault (List Byte) :=
  if addr + n ≤ memSize then m.getBytes addr n else .error (.memRange addr n)

/-- `MemWrite(addr, n, v)` with `n` the length of `v`: `v[0]` to the lowest address; defined only for `addr + n <= 128` (R46). -/
def memWrite (m : Memory) (addr : Nat) (v : List Byte) : Except Fault Memory :=
  if addr + v.length ≤ memSize then .ok (m.setBytes addr v) else .error (.memRange addr v.length)

/-! ### Responses and errors -/

/-- The errors (R177 to R179). -/
inductive Error where
  /-- Reserved for a strict variant; "the error is never raised" (R177). -/
  | invalidState
  /-- BATCH8 or XFORM8 with a wrong `LEN` (R178). -/
  | laneCountMismatch
  /-- A reserved opcode (R179). -/
  | illegalCommand
  /-- Another fixed-format command with a wrong `LEN` (R179). -/
  | badLength
  deriving DecidableEq, Repr

/-- `STATUS` of a success (R180). -/
def okCode : Byte := 0x00

/-- `STATUS` of each error (R180). -/
def Error.code : Error → Byte
  | .invalidState => 0x01
  | .laneCountMismatch => 0x02
  | .illegalCommand => 0x03
  | .badLength => 0x04

/-- A response frame: `STATUS`, `RLEN`, then the bytes (R66). -/
def responseBytes (status : Byte) (bytes : List Byte) : List Byte :=
  headerBytes status bytes.length ++ bytes

/-- Writes one response behind those the host has not yet taken (R29, R52, R66). -/
def emit (status : Byte) (bytes : List Byte) (s : State) : State :=
  { s with output := s.output ++ responseBytes status bytes }

/-- `respond OK(bytes)` (R66). -/
def respondOk (bytes : List Byte) (s : State) : State := emit okCode bytes s

/-- `raise E`: the error response, `RLEN = 0`, and no other change (R182). The frame has already been taken from the input. -/
def raise (e : Error) (s : State) : State := emit e.code [] s

/-! ### Free values of the working registers (R33, U8; log 2) -/

/-- A vector register of free words, the same for two engines with equal counters (DESIGN CHOICE, log 21). -/
def freeVReg (draw idx : Nat) : VReg :=
  Vector.ofFn fun l : Fin 8 => Config.freeWord draw (8 * idx + l.val)

/-- What the scalar unit holds once a transform is over: unspecified (R33). Two engines with equal counters get equal registers here
(DESIGN CHOICE, log 21). -/
def freeScalar (draw : Nat) : ScalarUnit :=
  { a := Config.freeWord draw 0, b := Config.freeWord draw 1, c := Config.freeWord draw 2,
    d := Config.freeWord draw 3, e := Config.freeWord draw 4, f := Config.freeWord draw 5,
    g := Config.freeWord draw 6, h := Config.freeWord draw 7, t1 := Config.freeWord draw 8,
    t2 := Config.freeWord draw 9, t := (Config.freeWord draw 10).setWidth 6,
    w := Vector.ofFn fun i : Fin 64 => Config.freeWord draw (11 + i.val) }

/-- What the 8-way unit holds once a transform is over: unspecified (R33). -/
def freeVector (draw : Nat) : VectorUnit :=
  { vs := Vector.ofFn fun j : Fin 8 => freeVReg draw j.val,
    vh := Vector.ofFn fun j : Fin 8 => freeVReg draw (8 + j.val),
    vw := Vector.ofFn fun i : Fin 64 => freeVReg draw (16 + i.val),
    vt1 := freeVReg draw 80, vt2 := freeVReg draw 81, t := (Config.freeWord draw 656).setWidth 6 }

/-- What `TM` holds once a transpose is over: unspecified (R33). -/
def freeMatrix (draw : Nat) : Matrix :=
  Vector.ofFn fun i : Fin 8 => freeVReg draw i.val

/-- The scalar unit's registers lose their values (R33). -/
def dropScalar (s : State) : State :=
  { s with scalar := freeScalar s.draws, draws := s.draws + 1 }

/-- The 8-way unit's registers lose their values (R33). -/
def dropVector (s : State) : State :=
  { s with vector := freeVector s.draws, draws := s.draws + 1 }

/-- The transposer's matrix loses its value (R33). -/
def dropMatrix (s : State) : State :=
  { s with tm := freeMatrix s.draws, draws := s.draws + 1 }

/-! ### The units, run on the registers the state holds -/

/-- One scalar transform in the scalar unit (R93, R102): its result, and the state with the unit's registers used up. -/
def runScalar (st : HashState) (b : Block) (s : State) : HashState × State :=
  let u := s.scalar.run st b
  (u.result st, dropScalar { s with scalar := u })

/-- One transpose in the transposer: `TM` takes the operand and gives the result (R26, R111). -/
def runTranspose (m : Matrix) (s : State) : Matrix × State :=
  let tm := transpose m
  (tm, dropMatrix { s with tm := tm })

/-- One 8-way transform in the 8-way unit, with the exit transpose in the transposer (R127, R132, R133). -/
def runVector (states : Vector HashState 8) (blocks : Vector Block 8) (s : State) :
    Vector HashState 8 × State :=
  let v := s.vector.run states blocks
  let tm := unpackStates v.vs
  (tm, dropMatrix (dropVector { s with vector := v, tm := tm }))

/-- One scalar transform of the 64 bytes at `addr` of the byte space (R146, R156). -/
def transformAt (h : HashState) (mem : Memory) (addr : Nat) (s : State) :
    Except Fault (HashState × State) :=
  match memRead mem addr 64 with
  | .error f => .error f
  | .ok bytes => .ok (runScalar h (blockAt bytes 0) s)

/-! ### Reset -/

/-- The reset input takes effect: the context initial, both streams empty, the working registers unspecified (R200, R32); the
model's counter of free values goes on (log 2, log 5). -/
def applyReset (s : State) : State :=
  dropMatrix (dropVector (dropScalar { State.reset with draws := s.draws }))

end Sys2Proof.Machine
end

