-- ==== Sys2Proof/Machine/Hasher.lean ====
section
/-! DEFINITION. The streaming hasher, its padding and length encoder, and the commands INIT, UPDATE, FINAL
(43_streaming_hasher.md R141 to R163). -/

namespace Sys2Proof.Machine

/-- INIT: the context becomes initial (R141). -/
def execInit (payload : List Byte) (s : State) : Host.Outcome State Fault Refusal :=
  if payload.length ≠ 0 then .next (raise .badLength s)
  else .next (respondOk [] { s with ctx := Context.initial })

/-- Absorbs one byte; the 64th byte of a block runs the transform and clears the buffer (R146, R150). -/
def absorb (x : Byte) (s : State) : Except Fault State :=
  match memWrite s.ctx.mem s.ctx.bufLen.toNat [x] with
  | .error f => .error f
  | .ok mem =>
    if s.ctx.bufLen + 1 = 64 then
      match transformAt s.ctx.h mem 0 s with
      | .error f => .error f
      | .ok (h, s') =>
        .ok { s' with ctx := { h := h, mem := [], bufLen := 0, bitLen := s.ctx.bitLen + 512 } }
    else
      .ok { s with ctx := { s.ctx with mem := mem, bufLen := s.ctx.bufLen + 1 } }

/-- Absorbs bytes in ascending order (R145). -/
def absorbAll : List Byte → State → Except Fault State
  | [], s => .ok s
  | x :: xs, s =>
    match absorb x s with
    | .error f => .error f
    | .ok s' => absorbAll xs s'

/-- UPDATE: absorbs the payload, any length; "no return value" (R144, R145). -/
def execUpdate (payload : List Byte) (s : State) : Host.Outcome State Fault Refusal :=
  match absorbAll payload s with
  | .error f => .fault f
  | .ok s' => .next (respondOk [] s')

/-- The total length in bits, modulo 2^64 (R150, R152). -/
def totalBits (c : Context) : Dword := c.bitLen + BitVec.ofNat 64 (8 * c.bufLen.toNat)

/-- The padded length `P`: 64, or 128 when the padding spills (R153, R154). -/
def paddedLen (n : Nat) : Nat := if n < 56 then 64 else 128

/-- The count `z` of zero bytes between `0x80` and the length field (R153). -/
def padZeros (n : Nat) : Nat := if n < 56 then 55 - n else 119 - n

/-- The padding written behind the buffered bytes: `0x80`, zeros, and the big-endian bit length as the last 8 bytes (R153, R155). -/
def padBuffer (c : Context) : Except Fault Memory :=
  let n := c.bufLen.toNat
  match memWrite c.mem n [0x80] with
  | .error f => .error f
  | .ok m1 =>
    match memWrite m1 (n + 1) (zeros (padZeros n)) with
    | .error f => .error f
    | .ok m2 => memWrite m2 (paddedLen n - 8) (toBe64 (totalBits c))

/-- The transforms of FINAL: one on addresses 0 to 63, and one more on 64 to 127 when the padded length is 128 (R156). -/
def finalTransforms (h : HashState) (mem : Memory) (p : Nat) (s : State) :
    Except Fault (HashState × State) :=
  match transformAt h mem 0 s with
  | .error f => .error f
  | .ok (h1, s1) => if p = 128 then transformAt h1 mem 64 s1 else .ok (h1, s1)

/-- FINAL: pads, transforms, responds the digest, and leaves the context initial (R151 to R160). -/
def execFinal (payload : List Byte) (s : State) : Host.Outcome State Fault Refusal :=
  if payload.length ≠ 0 then .next (raise .badLength s)
  else
    match padBuffer s.ctx with
    | .error f => .fault f
    | .ok mem =>
      match finalTransforms s.ctx.h mem (paddedLen s.ctx.bufLen.toNat) s with
      | .error f => .fault f
      | .ok (h, s') => .next (respondOk (encodeState h) { s' with ctx := Context.initial })

end Sys2Proof.Machine
end

