-- ==== Sys2Proof/Machine/Scalar.lean ====
section
/-! DEFINITION. The XFORM command (40_scalar_transform.md R103). -/

namespace Sys2Proof.Machine

/-- XFORM: the scalar block transform of the State and Block in the payload; the context is untouched (R103). -/
def execXform (payload : List Byte) (s : State) : Host.Outcome State Fault Refusal :=
  if payload.length ≠ 96 then .next (raise .badLength s)
  else
    let r := runScalar (stateAt payload 0) (blockAt payload 32) s
    .next (respondOk (encodeState r.1) r.2)

end Sys2Proof.Machine
end

