-- ==== Sys2Proof/Machine/Serializer.lean ====
section
/-! DEFINITION. The hexadecimal view of a digest and the HEX command (44_digest_encoding.md R169 to R172). -/

namespace Sys2Proof.Machine

/-- `HEXCHAR`: the lowercase ASCII character of a 4-bit value (R170; log 10). -/
def hexChar (v : BitVec 4) : Byte :=
  if v.toNat < 10 then BitVec.ofNat 8 (0x30 + v.toNat) else BitVec.ofNat 8 (0x61 + (v.toNat - 10))

/-- The two characters of a byte, high four bits first (R169). -/
def hexByte (b : Byte) : List Byte :=
  [hexChar (b.extractLsb' 4 4), hexChar (b.extractLsb' 0 4)]

/-- `HEXSTR`: byte 0 of the digest first (R169). -/
def hexStr (d : Digest) : List Byte := d.toList.flatMap hexByte

/-- HEX: the hexadecimal view of the 32 bytes in the payload; no state is read or written (R172). -/
def execHex (payload : List Byte) (s : State) : Host.Outcome State Fault Refusal :=
  if payload.length ≠ 32 then .next (raise .badLength s)
  else .next (respondOk (hexStr (digestAt payload 0)) s)

end Sys2Proof.Machine
end

