-- ==== Sys2Proof/Machine/Vector8.lean ====
section
/-! DEFINITION. The commands of the transposer and of the 8-way unit: TRN (41_lane_transpose.md R118), XFORM8 and BATCH8
(42_transform8.md R134 to R137). -/

namespace Sys2Proof.Machine

/-- TRN: the 8 x 8 word transpose of the matrix in the payload; the context is untouched (R118). -/
def execTrn (payload : List Byte) (s : State) : Host.Outcome State Fault Refusal :=
  if payload.length ≠ 256 then .next (raise .badLength s)
  else
    let r := runTranspose (matrixAt payload 0) s
    .next (respondOk (encodeMatrix r.1) r.2)

/-- XFORM8: one 8-way transform of the 8 States and 8 Blocks in the payload; the context is untouched (R134). -/
def execXform8 (payload : List Byte) (s : State) : Host.Outcome State Fault Refusal :=
  if payload.length ≠ 768 then .next (raise .laneCountMismatch s)
  else
    let r := runVector (statesAt payload 0) (blocksAt payload 256) s
    .next (respondOk (encodeStates r.1) r.2)

/-- BATCH8: one 8-way transform from `IV` in every lane, no padding; the context is untouched (R135, R136; log 11). -/
def execBatch8 (payload : List Byte) (s : State) : Host.Outcome State Fault Refusal :=
  if payload.length ≠ 512 then .next (raise .laneCountMismatch s)
  else
    let r := runVector (Vector.replicate 8 IV) (blocksAt payload 0) s
    .next (respondOk (encodeStates r.1) r.2)

end Sys2Proof.Machine
end

