-- ==== Sys2Proof/Machine/Dispatch.lean ====
section
/-! DEFINITION. One arm per command (30_encoding.md R64). -/

namespace Sys2Proof.Machine

def exec (i : Instr) (s : State) : Host.Outcome State Fault Refusal :=
  match i with
  | .init p => Sys2Proof.Machine.execInit p s
  | .update p => Sys2Proof.Machine.execUpdate p s
  | .final p => Sys2Proof.Machine.execFinal p s
  | .xform p => Sys2Proof.Machine.execXform p s
  | .xform8 p => Sys2Proof.Machine.execXform8 p s
  | .trn p => Sys2Proof.Machine.execTrn p s
  | .batch8 p => Sys2Proof.Machine.execBatch8 p s
  | .hex p => Sys2Proof.Machine.execHex p s

end Sys2Proof.Machine
end

