-- ==== Sys2Proof/Machine/Step.lean ====
section
/-! DEFINITION. One step of the engine: reset if it is asserted, else the next whole frame of the command stream, else nothing. -/

namespace Sys2Proof.Machine

/-- One step. The reset input comes first (R200). An incomplete frame leaves everything as it is: the engine "emits nothing, and
changes no state until the missing bytes arrive" (R71; log 4). A complete frame is taken whole from the input, then a reserved opcode
raises `IllegalCommand` (R69, R181) and an assigned one runs its command (R52). -/
def step (s : State) : Host.Outcome State Fault Refusal :=
  if s.resetPin then .next (applyReset s)
  else
    match decode s.input with
    | .wait _ => .next s
    | .reserved _ _ rest => .next (raise .illegalCommand { s with input := rest })
    | .command i rest => exec i { s with input := rest }

/-- The state with one frame placed where `step` takes its next frame, the front of the command stream, and the reset input not
asserted; it stands for the host having sent that frame (log 9). -/
def State.withFetchWord (s : State) (nbits w : Nat) : State :=
  { s with input := tableFrame nbits w ++ s.input, resetPin := false }

end Sys2Proof.Machine
end

