-- ==== Sys2Proof/Machine/Flags.lean ====
section
/-! DEFINITION. There are no flags: "no condition codes, carry, overflow or zero flags" (10_state.md R19), so no command computes one.
The only status-like notion is the phase, a description of the context that no command reads (R19, R142). -/

namespace Sys2Proof.Machine

/-- The phases a command boundary can show; `Finalized` is "never at a command boundary" (R19), so it is no value here. -/
inductive Phase where
  | empty
  | buffering (n : Nat)
  deriving DecidableEq, Repr

/-- The phase of a context: `Empty` when it equals the initial context, else `Buffering(BUFLEN)` (R19). -/
def Context.phase (c : Context) : Phase :=
  if c = Context.initial then .empty else .buffering c.bufLen.toNat

end Sys2Proof.Machine
end

