-- ==== Sys2Proof/Machine/HostPort.lean ====
section
/-! DEFINITION. What the host can do to one engine between two steps (10_state.md R29, 70_reset_and_hazards.md R200, R210): write
command bytes, take response bytes, assert reset. The streams are unbounded (R210; log 7). -/

namespace Sys2Proof.Machine

/-- The host writes bytes behind those already in the command stream (R29, R210). -/
def hostWrite (bytes : List Byte) (s : State) : State := { s with input := s.input ++ bytes }

/-- The host takes the first `n` response bytes (R29). -/
def hostRead (n : Nat) (s : State) : List Byte × State :=
  (s.output.take n, { s with output := s.output.drop n })

/-- The host asserts the reset input (R200; log 5). -/
def assertReset (s : State) : State := { s with resetPin := true }

end Sys2Proof.Machine
end

