-- ==== Sys2Proof/Machine/System.lean ====
section
/-! DEFINITION. Several engine instances side by side (00_scope.md R9, 60_exceptions.md R196, 20_memory.md R57). The number of
instances `N_INST` is the length of the list. Instances "share nothing but the read-only constant tables" (R9). -/

namespace Sys2Proof.Machine

/-- `N_INST` engines (R9, R196; log 14). -/
structure System where
  engines : List State
  deriving DecidableEq, Repr

/-- One step of one engine; an engine that has stopped stays as it is. -/
def tick (s : State) : State :=
  match step s with
  | .next t => t
  | .fault _ => s
  | .refused _ => s

/-- `n` steps of one engine alone. -/
def ticks : Nat → State → State
  | 0, s => s
  | n + 1, s => ticks n (tick s)

/-- Engine `i` takes one step; a number that names no engine does nothing. -/
def System.tickEngine (i : Nat) (y : System) : System :=
  { y with engines := y.engines.modify i tick }

/-- Runs an interleaving: which engine steps, in order (R196). -/
def System.run : List Nat → System → System
  | [], y => y
  | i :: is, y => System.run is (y.tickEngine i)

/-- `n` instances after reset (R9, R196: each has "its own reset state"). DESIGN CHOICE (log 1, log 21): their working registers, to
which the spec gives no value, are equal, and so are the free values they draw later at equal counters. -/
def System.reset (n : Nat) : System := { engines := List.replicate n State.reset }

end Sys2Proof.Machine
end

