-- ==== Sys2Proof/Machine/Typed.lean ====
section
/-! DEFINITION. The typed view of the engine (30_encoding.md R74): the commands as data, and what each answers and leaves, said with
the pure functions of the units alone (no registers, no byte space, no stream). The hasher is said block by block, as R147, R153
and R156 give it. The engine of `Machine/Step.lean` is compared with it by the obligations. -/

namespace Sys2Proof.Machine

/-- The commands as data (R74). -/
inductive Cmd where
  | init
  | update (data : List Byte)
  | final
  | xform (state : HashState) (block : Block)
  | trn (m : Matrix)
  | xform8 (states : Vector HashState 8) (blocks : Vector Block 8)
  | batch8 (blocks : Vector Block 8)
  | hex (d : Digest)
  /-- "everything else a header can say" (R74). -/
  | malformed (opc : Byte) (len : Nat)
  deriving DecidableEq, Repr

/-- The responses as data (R74). -/
inductive Resp where
  | ok (bytes : List Byte)
  | err (e : Error)
  deriving DecidableEq, Repr

/-- The typed context: `H`, the bytes `BUF[0 .. BUFLEN]`, `BITLEN` (R10 (a), R22, R34). -/
structure Hasher where
  h : HashState
  buf : List Byte
  bitLen : Dword
  deriving DecidableEq, Repr

/-- The initial typed context (R19 `Empty`). -/
def Hasher.initial : Hasher := { h := IV, buf := [], bitLen := 0 }

/-- The buffered bytes of a context, in address order (R22). -/
def Context.buffered (c : Context) : List Byte := c.mem.map Prod.snd

/-- The typed view of a context (R34). -/
def Context.typed (c : Context) : Hasher :=
  { h := c.h, buf := c.buffered, bitLen := c.bitLen }

/-- The typed operands of a command whose payload has the length its format requires (R72). -/
def Cmd.ofOperands : Instr → Cmd
  | .init _ => .init
  | .update p => .update p
  | .final _ => .final
  | .xform p => .xform (stateAt p 0) (blockAt p 32)
  | .xform8 p => .xform8 (statesAt p 0) (blocksAt p 256)
  | .trn p => .trn (matrixAt p 0)
  | .batch8 p => .batch8 (blocksAt p 0)
  | .hex p => .hex (digestAt p 0)

/-- The command of a frame with an assigned opcode: typed operands where `LEN` is what the format requires, else `Malformed`
(R65, R74). -/
def Cmd.ofInstr (i : Instr) : Cmd :=
  if i.wellFormed then Cmd.ofOperands i else .malformed i.opcode i.payload.length

/-- The command of any complete frame (R74: "The wire decoder maps a frame to exactly one `Cmd`"). -/
def Cmd.ofFrame (opc : Byte) (payload : List Byte) : Cmd :=
  match ofOpcode opc payload with
  | some i => Cmd.ofInstr i
  | none => .malformed opc payload.length

/-- The error of a malformed frame, from its header alone (R181). -/
def malformedError (opc : Byte) : Error :=
  if (ofOpcode opc []).isNone then .illegalCommand
  else if opc = 0x11 ∨ opc = 0x13 then .laneCountMismatch
  else .badLength

/-- `PAD`: the padded buffer (R153). -/
def padBytes (buf : List Byte) (total : Dword) : List Byte :=
  buf ++ [0x80] ++ zeros (padZeros buf.length) ++ toBe64 total

/-- What a command answers and leaves, at the typed level (R74): INIT R141, UPDATE R147, FINAL R152 to R158, XFORM R103, TRN R118,
XFORM8 R121 and R134, BATCH8 R135, HEX R172, malformed R181 and R182. -/
def Cmd.run : Cmd → Hasher → Resp × Hasher
  | .init, _ => (.ok [], Hasher.initial)
  | .update data, x =>
    let d := x.buf ++ data
    let q := d.length / 64
    (.ok [], { h := fold x.h (d.take (64 * q)), buf := d.drop (64 * q),
               bitLen := x.bitLen + BitVec.ofNat 64 (512 * q) })
  | .final, x =>
    (.ok (encodeState (fold x.h (padBytes x.buf (x.bitLen + BitVec.ofNat 64 (8 * x.buf.length))))),
      Hasher.initial)
  | .xform st b, x => (.ok (encodeState (transform st b)), x)
  | .trn m, x => (.ok (encodeMatrix (transpose m)), x)
  | .xform8 sts bs, x =>
    (.ok (encodeStates (Vector.ofFn fun l : Fin 8 => transform sts[l.val] bs[l.val])), x)
  | .batch8 bs, x => (.ok (encodeStates (Vector.ofFn fun l : Fin 8 => transform IV bs[l.val])), x)
  | .hex d, x => (.ok (hexStr d), x)
  | .malformed opc _, x => (.err (malformedError opc), x)

/-- The bytes of a response on the wire (R66, R180). -/
def Resp.bytes : Resp → List Byte
  | .ok bs => responseBytes okCode bs
  | .err e => responseBytes e.code []

/-- The count of zero bytes that pads a message of `len` bytes: the least `k` with `len + 1 + k + 8` a multiple of 64 (R162). -/
def messageZeros (len : Nat) : Nat := (64 - (len + 9) % 64) % 64

/-- A message with its padding (R162). -/
def padMessage (m : List Byte) : List Byte :=
  m ++ [0x80] ++ zeros (messageZeros m.length) ++ toBe64 (BitVec.ofNat 64 (8 * m.length))

/-- The digest of a message of fewer than 2^61 bytes (R162). -/
def sha256 (m : List Byte) : List Byte := encodeState (fold IV (padMessage m))

end Sys2Proof.Machine
end

