-- ==== Sys2Proof/Safety.lean ====
section
/-! DEFINITION. The terms the claims use: the invariant of a command boundary, what a host can tell apart, and the commands that leave
the context alone. -/

namespace Sys2Proof.Machine

/-- The context invariant of a command boundary: `BUFLEN` is 0 to 63 (R30 (i), R20), `BITLEN` is a multiple of 512 (R30 (ii), R21), and
the bytes held are exactly `BUF[0 .. BUFLEN]` (R22; `PADX` "holds nothing at a command boundary", R23). -/
def Context.Inv (c : Context) : Prop :=
  c.bufLen.toNat < 64 ∧ c.bitLen.toNat % 512 = 0 ∧ c.mem.map Prod.fst = List.range c.bufLen.toNat

/-- The invariant of one engine: that of its context. -/
def State.Inv (s : State) : Prop := s.ctx.Inv

/-- The padded buffer of R153, with its count of zero bytes written out: `BUF[0..n] ++ [0x80] ++ zeros(z) ++ to_be64(total)`, where
`total` is that of R152. -/
def Context.padded (c : Context) : List Byte :=
  c.buffered ++ [0x80] ++
    List.replicate (if c.bufLen.toNat ≤ 55 then 55 - c.bufLen.toNat else 119 - c.bufLen.toNat) 0 ++
    toBe64 (c.bitLen + BitVec.ofNat 64 (8 * c.bufLen.toNat))

/-- What can reach a response, now or later: everything but the working registers and the model's counter (R31). -/
structure Visible where
  ctx : Context
  input : List Byte
  output : List Byte
  resetPin : Bool
  deriving DecidableEq, Repr

/-- The visible part of a state (R31). -/
def State.visible (s : State) : Visible :=
  { ctx := s.ctx, input := s.input, output := s.output, resetPin := s.resetPin }

/-- Two outcomes a host cannot tell apart. -/
def sameVisible : Host.Outcome State Fault Refusal → Host.Outcome State Fault Refusal → Prop
  | .next t, .next t' => t.visible = t'.visible
  | .fault f, .fault f' => f = f'
  | .refused r, .refused r' => r = r'
  | _, _ => False

/-- The pure commands: they "are pure and may be repeated with the same result" (R49, R188). -/
def isPure : Instr → Bool
  | .init _ => false
  | .update _ => false
  | .final _ => false
  | .xform _ => true
  | .xform8 _ => true
  | .trn _ => true
  | .batch8 _ => true
  | .hex _ => true

/-- Runs commands one after another, stopping at the first that stops (R52). -/
def execAll : List Instr → State → Host.Outcome State Fault Refusal
  | [], s => .next s
  | i :: is, s =>
    match exec i s with
    | .next t => execAll is t
    | .fault f => .fault f
    | .refused r => .refused r

/-- `n` steps, stopping at the first that stops. -/
def steps : Nat → State → Host.Outcome State Fault Refusal
  | 0, s => .next s
  | n + 1, s =>
    match step s with
    | .next t => steps n t
    | .fault f => .fault f
    | .refused r => .refused r

/-- The eight assigned opcodes; "the other 248 are reserved" (R64, R69). -/
def assignedOpcodes : List Byte := [0x01, 0x02, 0x03, 0x10, 0x11, 0x12, 0x13, 0x20]

/-- The payload length the opcode's format requires, none for the variable format (R65). -/
def fixedLen (opc : Byte) : Option Nat :=
  if opc = 0x01 then some 0
  else if opc = 0x03 then some 0
  else if opc = 0x10 then some 96
  else if opc = 0x11 then some 768
  else if opc = 0x12 then some 256
  else if opc = 0x13 then some 512
  else if opc = 0x20 then some 32
  else none

/-- `RLEN` of the response of a command that succeeds (R67). -/
def okRlen (opc : Byte) : Nat :=
  if opc = 0x03 then 32
  else if opc = 0x10 then 32
  else if opc = 0x11 then 256
  else if opc = 0x12 then 256
  else if opc = 0x13 then 256
  else if opc = 0x20 then 64
  else 0

/-- The primes the round constants come from, 2 to 311 (R27). -/
def primes64 : List Nat :=
  (List.range 312).filter fun n => decide (2 ≤ n) && (List.range n).all fun d => decide (d < 2) || n % d != 0

/-- `w` is the first 32 bits of the fractional part of the real `k`-th root of `p`: with `q` its whole part,
`q * 2^32 + w` is the floor of `2^32` times the root (R27, R28). -/
def isRootFraction (k p : Nat) (w : Word) : Prop :=
  ∃ q : Nat, (q * 2 ^ 32 + w.toNat) ^ k ≤ p * 2 ^ (32 * k) ∧ p * 2 ^ (32 * k) < (q * 2 ^ 32 + w.toNat + 1) ^ k

end Sys2Proof.Machine
end

