-- ==== Sys2Proof/Certificates/Slice0/Obligations.lean ====
section
/-! DEFINITION. The statements about the engine. Each docstring names the rule of spec/ it formalises. -/

open Sys2Proof Sys2Proof.Machine

/-! ## Byte order and word functions -/

/-- R42, R43, R44: big-endian, and `be32` and `to_be32` undo each other. -/
def Obligations.BigEndianBytes : Prop :=
  (∀ b0 b1 b2 b3 : Byte,
    (be32 b0 b1 b2 b3).toNat = b0.toNat * 2 ^ 24 + b1.toNat * 2 ^ 16 + b2.toNat * 2 ^ 8 + b3.toNat ∧
    toBe32 (be32 b0 b1 b2 b3) = [b0, b1, b2, b3]) ∧
  (∀ w : Word, toBe32 w = [w.extractLsb' 24 8, w.extractLsb' 16 8, w.extractLsb' 8 8, w.extractLsb' 0 8]) ∧
  (∀ w : Word,
    be32 (w.extractLsb' 24 8) (w.extractLsb' 16 8) (w.extractLsb' 8 8) (w.extractLsb' 0 8) = w) ∧
  (∀ d : Dword, toBe64 d =
    [d.extractLsb' 56 8, d.extractLsb' 48 8, d.extractLsb' 40 8, d.extractLsb' 32 8,
     d.extractLsb' 24 8, d.extractLsb' 16 8, d.extractLsb' 8 8, d.extractLsb' 0 8])

/-- R88: every bit of a shift and of a rotation. -/
def Obligations.RotateAndShiftBits : Prop :=
  (∀ (n i : Nat) (x : Word), i < 32 →
    (shr n x).getLsbD i = if i + n ≤ 31 then x.getLsbD (i + n) else false) ∧
  (∀ (n i : Nat) (x : Word), 1 ≤ n → n ≤ 31 → i < 32 →
    (rotr n x).getLsbD i = x.getLsbD ((i + n) % 32))

/-- R89, R90: choice and majority, bit by bit, with the rules' corner cases. -/
def Obligations.ChoiceAndMajority : Prop :=
  (∀ x y z : Word, ch x y z = (x &&& y) ^^^ (~~~x &&& z)) ∧
  (∀ (x y z : Word) (i : Nat), i < 32 →
    (ch x y z).getLsbD i = if x.getLsbD i then y.getLsbD i else z.getLsbD i) ∧
  (∀ y z : Word, ch 0xffffffff y z = y ∧ ch 0 y z = z) ∧ (∀ x y : Word, ch x y y = y) ∧
  (∀ x y z : Word, maj x y z = (x &&& y) ^^^ (x &&& z) ^^^ (y &&& z)) ∧
  (∀ (x y z : Word) (i : Nat), i < 32 →
    (maj x y z).getLsbD i =
      decide (2 ≤ (x.getLsbD i).toNat + (y.getLsbD i).toNat + (z.getLsbD i).toNat)) ∧
  (∀ x z : Word, maj x x z = x ∧ maj 0xffffffff 0 z = z ∧ maj 0 0 z = 0) ∧
  (∀ x y z : Word, maj x y z = maj y x z ∧ maj x y z = maj x z y)

/-- R91, R92: the rotation and shift amounts of the four mixing functions, bit by bit. -/
def Obligations.MixingFunctionBits : Prop :=
  ∀ (x : Word) (i : Nat), i < 32 →
    (bsig0 x).getLsbD i =
      (x.getLsbD ((i + 2) % 32) ^^ x.getLsbD ((i + 13) % 32) ^^ x.getLsbD ((i + 22) % 32)) ∧
    (bsig1 x).getLsbD i =
      (x.getLsbD ((i + 6) % 32) ^^ x.getLsbD ((i + 11) % 32) ^^ x.getLsbD ((i + 25) % 32)) ∧
    (ssig0 x).getLsbD i =
      (x.getLsbD ((i + 7) % 32) ^^ x.getLsbD ((i + 18) % 32) ^^ x.getLsbD (i + 3)) ∧
    (ssig1 x).getLsbD i =
      (x.getLsbD ((i + 17) % 32) ^^ x.getLsbD ((i + 19) % 32) ^^ x.getLsbD (i + 10))

/-- R27, R28: every round constant is the cube-root fraction of its prime, every initial word the square-root fraction, and there
are 64 such primes. -/
def Obligations.RomTablesAreRootFractions : Prop :=
  primes64.length = 64 ∧
  (∀ t : Fin 64, isRootFraction 3 (primes64.getD t.val 0) (K (BitVec.ofFin t))) ∧
  (∀ i : Fin 8, isRootFraction 2 (primes64.getD i.val 0) IV[i])

/-! ## The scalar block transform -/

/-- R94, R96, R97: the message schedule, whatever the unit held before. -/
def Obligations.ScheduleWords : Prop :=
  ∀ (u : ScalarUnit) (b : Block),
    (∀ (j : Nat) (h : j < 16), ((u.loadBlock b).expand 48).w[j] =
      be32 b[4 * j] b[4 * j + 1] b[4 * j + 2] b[4 * j + 3]) ∧
    (∀ (t : Nat) (h : t < 64), 16 ≤ t → ((u.loadBlock b).expand 48).w[t] =
      ssig1 ((u.loadBlock b).expand 48).w[t - 2] + ((u.loadBlock b).expand 48).w[t - 7] +
      ssig0 ((u.loadBlock b).expand 48).w[t - 15] + ((u.loadBlock b).expand 48).w[t - 16])

/-- R95: one round, all eight registers from the old values, and no schedule word changed. -/
def Obligations.RoundUpdatesTheChain : Prop :=
  ∀ u : ScalarUnit,
    u.round.t1 = u.h + bsig1 u.e + ch u.e u.f u.g + K u.t + u.w[u.t.toNat]'(u.t.isLt) ∧
    u.round.t2 = bsig0 u.a + maj u.a u.b u.c ∧
    u.round.h = u.g ∧ u.round.g = u.f ∧ u.round.f = u.e ∧ u.round.e = u.d + u.round.t1 ∧
    u.round.d = u.c ∧ u.round.c = u.b ∧ u.round.b = u.a ∧ u.round.a = u.round.t1 + u.round.t2 ∧
    u.round.w = u.w

/-- R98, R99, R100: the registers start from the input state, round `t` runs at round index `t` for `t` = 0 to 63 in ascending order, and
the input state is added at the end. -/
def Obligations.TransformOrder : Prop :=
  ∀ (u x : ScalarUnit) (st : HashState) (b : Block), x = ((u.loadBlock b).expand 48).loadState st →
    (x.a = st[0] ∧ x.b = st[1] ∧ x.c = st[2] ∧ x.d = st[3] ∧
      x.e = st[4] ∧ x.f = st[5] ∧ x.g = st[6] ∧ x.h = st[7]) ∧
    (∀ t : Nat, t < 64 → (ScalarUnit.rounds t x).t.toNat = t ∧
      ScalarUnit.rounds (t + 1) x = (ScalarUnit.rounds t x).round) ∧
    u.run st b = ScalarUnit.rounds 64 x ∧
    (u.run st b).result st =
      #v[st[0] + (u.run st b).a, st[1] + (u.run st b).b, st[2] + (u.run st b).c, st[3] + (u.run st b).d,
         st[4] + (u.run st b).e, st[5] + (u.run st b).f, st[6] + (u.run st b).g, st[7] + (u.run st b).h]

/-- R31, R86, R104: the transform depends on its two operands alone, not on what the unit's registers held. -/
def Obligations.TransformReadsOnlyItsOperands : Prop :=
  ∀ (u : ScalarUnit) (st : HashState) (b : Block), (u.run st b).result st = transform st b

/-- R105: the chaining of the transform over a byte sequence of whole blocks. -/
def Obligations.FoldRecursion : Prop :=
  (∀ st : HashState, fold st [] = st) ∧
  (∀ (st : HashState) (bytes : List Byte), bytes ≠ [] → bytes.length % 64 = 0 →
    fold st bytes = fold (transform st (blockAt (bytes.take 64) 0)) (bytes.drop 64))

/-! ## The transposer and the 8-way unit -/

/-- R111, R113: the index mapping, and that it is an involution. -/
def Obligations.TransposeInvolution : Prop :=
  (∀ (m : Matrix) (i j : Nat) (hi : i < 8) (hj : j < 8), (transpose m)[i][j] = m[j][i]) ∧
  (∀ m : Matrix, transpose (transpose m) = m)

/-- R116, R117: pack and unpack. -/
def Obligations.PackAndUnpack : Prop :=
  (∀ (states : Vector HashState 8) (l j : Nat) (hl : l < 8) (hj : j < 8),
    (packStates states)[j][l] = states[l][j]) ∧
  (∀ (vs : Vector VReg 8) (l j : Nat) (hl : l < 8) (hj : j < 8), (unpackStates vs)[l][j] = vs[j][l]) ∧
  (∀ states : Vector HashState 8, unpackStates (packStates states) = states) ∧
  (∀ (blocks : Vector Block 8) (t l : Nat) (ht : t < 16) (hl : l < 8),
    (packBlocks blocks)[t][l] = (blockWords blocks[l])[t])

/-- R122, R123, R124: every vector operation and function is the scalar one in each lane, and reads no other lane. -/
def Obligations.VectorOperationsAreLanewise : Prop :=
  ∀ (x y z : VReg) (l : Nat) (hl : l < 8),
    (vand x y)[l] = (x[l] &&& y[l]) ∧ (vor x y)[l] = (x[l] ||| y[l]) ∧ (vxor x y)[l] = (x[l] ^^^ y[l]) ∧
    (vnot x)[l] = ~~~x[l] ∧ (∀ n : Nat, (vrotr n x)[l] = rotr n x[l] ∧ (vshr n x)[l] = shr n x[l]) ∧
    (vadd x y)[l] = x[l] + y[l] ∧ (∀ w : Word, (vbcast w)[l] = w) ∧
    (vch x y z)[l] = ch x[l] y[l] z[l] ∧ (vmaj x y z)[l] = maj x[l] y[l] z[l] ∧
    (vbsig0 x)[l] = bsig0 x[l] ∧ (vbsig1 x)[l] = bsig1 x[l] ∧
    (vssig0 x)[l] = ssig0 x[l] ∧ (vssig1 x)[l] = ssig1 x[l]

/-- R121, R133: the 8-way construction, on a unit that held anything, is eight independent scalar transforms. -/
def Obligations.EightWayEqualsScalar : Prop :=
  ∀ (v : VectorUnit) (states : Vector HashState 8) (blocks : Vector Block 8) (i : Nat) (hi : i < 8),
    (unpackStates (v.run states blocks).vs)[i] = transform states[i] blocks[i]

/-! ## The byte space -/

/-- R46: a write is read back, touches nothing else, and is defined exactly inside the byte space; a read of a byte that nothing has
written stops (the stop is the model's choice, log 3). -/
def Obligations.ByteSpaceReadsAndWrites : Prop :=
  (∀ (m : Memory) (a : Nat) (v : List Byte), a + v.length ≤ 128 →
    ∃ m', memWrite m a v = .ok m' ∧ memRead m' a v.length = .ok v ∧
      ∀ a' : Nat, a' < a ∨ a + v.length ≤ a' → m'.get? a' = m.get? a') ∧
  (∀ (m : Memory) (a : Nat) (v : List Byte), 128 < a + v.length →
    memWrite m a v = .error (.memRange a v.length)) ∧
  (∀ (m : Memory) (a n : Nat), 128 < a + n → memRead m a n = .error (.memRange a n)) ∧
  (∀ (m : Memory) (a n i : Nat), a + n ≤ 128 → i < n → m.get? (a + i) = none →
    (∀ j : Nat, j < i → m.get? (a + j) ≠ none) → memRead m a n = .error (.memUnwritten (a + i)))

/-! ## INIT, UPDATE, FINAL -/

/-- R141: INIT. That it leaves the registers of the scalar unit, of the 8-way unit and of the transposer as they were is the model's choice
(log 2): R141 does not name them and R33 gives them no value at a command boundary. -/
def Obligations.InitCommand : Prop :=
  ∀ s : State,
    (∃ t, exec (.init []) s = .next t ∧
      t.ctx.h = IV ∧ t.ctx.bufLen = 0 ∧ t.ctx.bitLen = 0 ∧ t.ctx.mem = [] ∧
      t.output = s.output ++ [0x00, 0, 0, 0] ∧ t.input = s.input ∧ t.resetPin = s.resetPin ∧
      t.scalar = s.scalar ∧ t.vector = s.vector ∧ t.tm = s.tm) ∧
    (∀ p : List Byte, p ≠ [] →
      exec (.init p) s = .next { s with output := s.output ++ [0x04, 0, 0, 0] })

/-- R146: absorbing one byte. -/
def Obligations.AbsorbOneByte : Prop :=
  ∀ (s : State) (x : Byte), s.Inv →
    (s.ctx.bufLen ≠ 63 → absorb x s = .ok { s with ctx := { s.ctx with
      mem := s.ctx.mem ++ [(s.ctx.bufLen.toNat, x)], bufLen := s.ctx.bufLen + 1 } }) ∧
    (s.ctx.bufLen = 63 → ∃ t, absorb x s = .ok t ∧
      t.ctx.h = transform s.ctx.h (blockAt (s.ctx.buffered ++ [x]) 0) ∧ t.ctx.bufLen = 0 ∧
      t.ctx.mem = [] ∧ t.ctx.bitLen = s.ctx.bitLen + 512 ∧
      t.vector = s.vector ∧ t.tm = s.tm ∧ t.input = s.input ∧ t.output = s.output ∧
      t.resetPin = s.resetPin)

/-- R147: UPDATE, block by block, with the state R145 lets it write (no register of the 8-way unit or of the transposer); with `D` the buffered bytes and the payload, `q` whole blocks of `D` are folded into `H` and the rest
stays in the buffer. When `q` is 0 nothing but the buffer changes. -/
def Obligations.UpdateBlockwise : Prop :=
  ∀ (s : State) (data d : List Byte) (q : Nat), s.Inv → d = s.ctx.buffered ++ data → q = d.length / 64 →
    ∃ t, exec (.update data) s = .next t ∧
      t.ctx.h = fold s.ctx.h (d.take (64 * q)) ∧
      t.ctx.bitLen = s.ctx.bitLen + BitVec.ofNat 64 (512 * q) ∧
      t.ctx.bufLen.toNat = d.length % 64 ∧
      t.ctx.mem.map Prod.fst = List.range (d.length % 64) ∧ t.ctx.mem.map Prod.snd = d.drop (64 * q) ∧
      t.output = s.output ++ [0x00, 0, 0, 0] ∧ t.input = s.input ∧ t.resetPin = s.resetPin ∧
      t.vector = s.vector ∧ t.tm = s.tm ∧
      (q = 0 → t.ctx.h = s.ctx.h ∧ t.ctx.bitLen = s.ctx.bitLen ∧ t.scalar = s.scalar)

/-- R144: an UPDATE of no bytes changes nothing but the response stream, in any state. -/
def Obligations.EmptyUpdateChangesNothing : Prop :=
  ∀ s : State, exec (.update []) s = .next { s with output := s.output ++ [0x00, 0, 0, 0] }

/-- R149: chunking invariance, also with commands between the two that leave the context alone (pure ones, and any command that ends
in an error). -/
def Obligations.ChunkingInvariance : Prop :=
  ∀ (s : State) (x y : List Byte) (between : List Instr), s.Inv → x.length + y.length ≤ Config.lenMax →
    (∀ i ∈ between, isPure i = true ∨ i.wellFormed = false) → (∀ i ∈ between, i.encodable = true) →
    ∃ t1 t2 t3 t, exec (.update x) s = .next t1 ∧
      execAll between t1 = .next t2 ∧
      exec (.update y) t2 = .next t3 ∧ exec (.update (x ++ y)) s = .next t ∧ t3.ctx = t.ctx

/-- R150: `BITLEN` wraps modulo 2^64, and the command goes on. -/
def Obligations.BitCounterWraps : Prop :=
  ∀ (s : State) (x : Byte), s.Inv → s.ctx.bufLen = 63 → s.ctx.bitLen.toNat = 2 ^ 64 - 512 →
    ∃ t, exec (.update [x]) s = .next t ∧ t.ctx.bitLen = 0 ∧ t.output = s.output ++ [0x00, 0, 0, 0]

/-- R152, R153: the padded buffer, every byte of it. -/
def Obligations.PaddedBuffer : Prop :=
  ∀ c : Context, c.Inv → ∃ m, padBuffer c = .ok m ∧
    m.map Prod.fst = List.range (if c.bufLen.toNat ≤ 55 then 64 else 128) ∧
    m.map Prod.snd = c.buffered ++ [0x80] ++
      List.replicate (if c.bufLen.toNat ≤ 55 then 55 - c.bufLen.toNat else 119 - c.bufLen.toNat) 0 ++
      toBe64 (c.bitLen + BitVec.ofNat 64 (8 * c.bufLen.toNat))

/-- R158: FINAL. -/
def Obligations.FinalCommand : Prop :=
  (∀ s : State, s.Inv → ∃ t, exec (.final []) s = .next t ∧
    s.ctx.padded.length = (if s.ctx.bufLen.toNat ≤ 55 then 64 else 128) ∧
    t.output = s.output ++ [0x00, 0, 0, 32] ++ encodeState (fold s.ctx.h s.ctx.padded) ∧
    t.ctx.h = IV ∧ t.ctx.bufLen = 0 ∧ t.ctx.bitLen = 0 ∧ t.ctx.mem = [] ∧
    t.input = s.input ∧ t.resetPin = s.resetPin ∧ t.vector = s.vector ∧ t.tm = s.tm) ∧
  (∀ (s : State) (p : List Byte), p ≠ [] →
    exec (.final p) s = .next { s with output := s.output ++ [0x04, 0, 0, 0] })

/-- R162: from an initial context, any UPDATE frames whose payloads concatenate to a message of fewer than 2^61 bytes, then a FINAL
frame, answer the SHA-256 digest of the message; and the two known answers of the source. -/
def Obligations.MessageDigest : Prop :=
  (∀ (s : State) (chunks : List (List Byte)) (rest : List Byte),
    s.ctx = Context.initial → s.resetPin = false →
    (∀ c ∈ chunks, c.length ≤ Config.lenMax) → chunks.flatten.length < 2 ^ 61 →
    s.input = (chunks.map fun c => encode (.update c)).flatten ++ encode (.final []) ++ rest →
    ∃ t : State, steps (chunks.length + 1) s = .next t ∧
      t.ctx = Context.initial ∧ t.input = rest ∧
      t.output = s.output ++ (List.replicate chunks.length [0x00, 0, 0, 0]).flatten ++
        [0x00, 0, 0, 32] ++ sha256 chunks.flatten) ∧
  (∀ m : List Byte, sha256 m = encodeState (fold IV
    (m ++ [0x80] ++ List.replicate (messageZeros m.length) 0 ++ toBe64 (BitVec.ofNat 64 (8 * m.length))))) ∧
  (∀ n : Nat, (n + 1 + messageZeros n + 8) % 64 = 0 ∧
    (∀ k : Nat, (n + 1 + k + 8) % 64 = 0 → messageZeros n ≤ k) ∧
    messageZeros n = if n % 64 ≤ 55 then 55 - n % 64 else 119 - n % 64) ∧
  sha256 [] =
    [0xe3, 0xb0, 0xc4, 0x42, 0x98, 0xfc, 0x1c, 0x14, 0x9a, 0xfb, 0xf4, 0xc8, 0x99, 0x6f, 0xb9, 0x24,
     0x27, 0xae, 0x41, 0xe4, 0x64, 0x9b, 0x93, 0x4c, 0xa4, 0x95, 0x99, 0x1b, 0x78, 0x52, 0xb8, 0x55] ∧
  sha256 [0x61, 0x62, 0x63] =
    [0xba, 0x78, 0x16, 0xbf, 0x8f, 0x01, 0xcf, 0xea, 0x41, 0x41, 0x40, 0xde, 0x5d, 0xae, 0x22, 0x23,
     0xb0, 0x03, 0x61, 0xa3, 0x96, 0x17, 0x7a, 0x9c, 0xb4, 0x10, 0xff, 0x61, 0xf2, 0x00, 0x15, 0xad]

/-- R142: the moves between the phases. From `Buffering(k)` the statement speaks of `BUFLEN`. -/
def Obligations.PhaseMoves : Prop :=
  ∀ s : State, s.Inv →
    (∀ data : List Byte, s.ctx.phase = .empty → data.length ≤ Config.lenMax →
      ∃ t, exec (.update data) s = .next t ∧
        t.ctx.phase = if data = [] then .empty else .buffering (data.length % 64)) ∧
    (∀ (data : List Byte) (k : Nat), s.ctx.phase = .buffering k →
      ∃ t, exec (.update data) s = .next t ∧ t.ctx.bufLen.toNat = (k + data.length) % 64) ∧
    (∃ t, exec (.init []) s = .next t ∧ t.ctx.phase = .empty) ∧
    (∃ t, exec (.final []) s = .next t ∧ t.ctx.phase = .empty) ∧
    (∀ i : Instr, isPure i = true → ∃ t, exec i s = .next t ∧ t.ctx.phase = s.ctx.phase)

/-! ## The pure commands -/

/-- R103: XFORM. -/
def Obligations.XformCommand : Prop :=
  ∀ (p : List Byte) (s : State),
    (p.length = 96 → ∃ t, exec (.xform p) s = .next t ∧
      t.output = s.output ++ [0x00, 0, 0, 32] ++
        encodeState (transform (stateAt (p.take 32) 0) (blockAt (p.drop 32) 0)) ∧
      t.ctx = s.ctx ∧ t.input = s.input ∧ t.resetPin = s.resetPin ∧ t.vector = s.vector ∧ t.tm = s.tm) ∧
    (p.length ≠ 96 → exec (.xform p) s = .next { s with output := s.output ++ [0x04, 0, 0, 0] })

/-- R118: TRN; every response byte is the payload byte of the transposed place. -/
def Obligations.TrnCommand : Prop :=
  ∀ (p : List Byte) (s : State),
    (p.length = 256 → ∃ t bytes, exec (.trn p) s = .next t ∧
      t.output = s.output ++ [0x00, 0, 1, 0] ++ bytes ∧ bytes.length = 256 ∧
      (∀ i j k : Nat, i < 8 → j < 8 → k < 4 →
        bytes.getD (4 * (8 * i + j) + k) 0 = p.getD (4 * (8 * j + i) + k) 0) ∧
      t.ctx = s.ctx ∧ t.input = s.input ∧ t.resetPin = s.resetPin ∧
      t.scalar = s.scalar ∧ t.vector = s.vector) ∧
    (p.length ≠ 256 → exec (.trn p) s = .next { s with output := s.output ++ [0x04, 0, 0, 0] })

/-- R113, R118: the response of a TRN, sent back as the payload of a second TRN, returns the first payload. -/
def Obligations.TrnTwiceReturnsThePayload : Prop :=
  ∀ (p : List Byte) (s s' : State), p.length = 256 →
    ∃ t t' bytes, exec (.trn p) s = .next t ∧ t.output = s.output ++ [0x00, 0, 1, 0] ++ bytes ∧
      exec (.trn bytes) s' = .next t' ∧ t'.output = s'.output ++ [0x00, 0, 1, 0] ++ p

/-- R134: XFORM8; lane `l` of the response is the scalar transform of lane `l` of the payload. -/
def Obligations.Xform8Command : Prop :=
  ∀ (p : List Byte) (s : State),
    (p.length = 768 → ∃ t bytes, exec (.xform8 p) s = .next t ∧
      t.output = s.output ++ [0x00, 0, 1, 0] ++ bytes ∧ bytes.length = 256 ∧
      (∀ l : Nat, l < 8 → (bytes.drop (32 * l)).take 32 =
        encodeState (transform (stateAt ((p.drop (32 * l)).take 32) 0)
          (blockAt ((p.drop (256 + 64 * l)).take 64) 0))) ∧
      t.ctx = s.ctx ∧ t.input = s.input ∧ t.resetPin = s.resetPin ∧ t.scalar = s.scalar) ∧
    (p.length ≠ 768 → exec (.xform8 p) s = .next { s with output := s.output ++ [0x02, 0, 0, 0] })

/-- R135, R136: BATCH8; lane `l` of the response is one transform of block `l` from `IV`, with no padding (the spec's decision D12, log 11).
That the scalar unit's registers are as they were is the model's choice (log 2): R136 speaks of the context only. -/
def Obligations.Batch8Command : Prop :=
  ∀ (p : List Byte) (s : State),
    (p.length = 512 → ∃ t bytes, exec (.batch8 p) s = .next t ∧
      t.output = s.output ++ [0x00, 0, 1, 0] ++ bytes ∧ bytes.length = 256 ∧
      (∀ l : Nat, l < 8 → (bytes.drop (32 * l)).take 32 =
        encodeState (transform IV (blockAt ((p.drop (64 * l)).take 64) 0))) ∧
      t.ctx = s.ctx ∧ t.input = s.input ∧ t.resetPin = s.resetPin ∧ t.scalar = s.scalar) ∧
    (p.length ≠ 512 → exec (.batch8 p) s = .next { s with output := s.output ++ [0x02, 0, 0, 0] })

/-- R135 (i): a lane whose block is the padded form of a message of at most 55 bytes answers the digest of that message. -/
def Obligations.Batch8OfPaddedMessage : Prop :=
  ∀ (p m : List Byte) (s : State) (l : Nat), p.length = 512 → l < 8 → m.length ≤ 55 →
    (p.drop (64 * l)).take 64 = padMessage m →
    ∃ t bytes, exec (.batch8 p) s = .next t ∧ t.output = s.output ++ [0x00, 0, 1, 0] ++ bytes ∧
      (bytes.drop (32 * l)).take 32 = sha256 m

/-- R169, R170, R172: HEX. -/
def Obligations.HexCommand : Prop :=
  ∀ (p : List Byte) (s : State),
    (p.length = 32 → ∃ t bytes, exec (.hex p) s = .next t ∧
      t.output = s.output ++ [0x00, 0, 0, 64] ++ bytes ∧ bytes.length = 64 ∧
      (∀ i : Nat, i < 32 →
        bytes.getD (2 * i) 0 = hexChar ((p.getD i 0).extractLsb' 4 4) ∧
        bytes.getD (2 * i + 1) 0 = hexChar ((p.getD i 0).extractLsb' 0 4)) ∧
      t.ctx = s.ctx ∧ t.input = s.input ∧ t.resetPin = s.resetPin ∧
      t.scalar = s.scalar ∧ t.vector = s.vector ∧ t.tm = s.tm) ∧
    (p.length ≠ 32 → exec (.hex p) s = .next { s with output := s.output ++ [0x04, 0, 0, 0] }) ∧
    (∀ v : BitVec 4,
      (v.toNat ≤ 9 → (hexChar v).toNat = 0x30 + v.toNat) ∧
      (10 ≤ v.toNat → (hexChar v).toNat = 0x61 + (v.toNat - 10)))

/-- R166, R167, R168: `ENCODE` byte by byte, and that `DECODE_STATE` undoes it and is undone by it. -/
def Obligations.EncodeAndDecodeState : Prop :=
  (∀ st : HashState, (encodeState st).length = 32 ∧
    (∀ (j k : Nat) (hj : j < 8), k < 4 →
      (encodeState st).getD (4 * j + k) 0 = (st[j]).extractLsb' (24 - 8 * k) 8) ∧
    stateAt (encodeState st) 0 = st) ∧
  (∀ p : List Byte, p.length = 32 → encodeState (stateAt p 0) = p)

/-- R49, R188: a pure command answers the same bytes in every state and leaves the context as it was. -/
def Obligations.PureCommandsIgnoreTheState : Prop :=
  ∀ i : Instr, isPure i = true → ∃ bytes : List Byte, ∀ s : State, ∃ t, exec i s = .next t ∧
    t.output = s.output ++ bytes ∧ t.ctx = s.ctx ∧ t.input = s.input ∧ t.resetPin = s.resetPin

/-! ## Frames, errors, one step -/

/-- R61, R63, R65, R70: decoding an encoded command gives it back, whatever follows it in the stream, for every command a frame can
carry, with any payload. -/
def Obligations.DecodeEncode : Prop :=
  ∀ (i : Instr) (rest : List Byte), i.encodable = true → decode (encode i ++ rest) = .command i rest

/-- R64, R69, R73: the decoder reads each byte stream in exactly one way. A command it finds is the frame at the front; a reserved frame
has an unassigned opcode; else it waits for a known number of bytes of a frame that is not complete. -/
def Obligations.DecodeIsUnambiguous : Prop :=
  ∀ bs : List Byte,
    (∃ i rest, decode bs = .command i rest ∧ bs = encode i ++ rest ∧ i.encodable = true) ∨
    (∃ opc payload rest, decode bs = .reserved opc payload.length rest ∧
      bs = frameBytes opc payload ++ rest ∧ payload.length ≤ Config.lenMax ∧ opc ∉ assignedOpcodes) ∨
    (∃ k, decode bs = .wait k ∧ 0 < k ∧
      ((bs.length < 4 ∧ k = 4 - bs.length) ∨
       ∃ b0 b1 b2 b3 tail, bs = b0 :: b1 :: b2 :: b3 :: tail ∧
        tail.length + k = b1.toNat * 2 ^ 16 + b2.toNat * 2 ^ 8 + b3.toNat))

/-- R64: the words of the spec's encodings decode to their commands, a reserved opcode to none. A sanity statement. -/
def Obligations.DecodingExamples : Prop :=
  decodeTableWord 32 0b00000001000000000000000000000000 = some (.init []) ∧
  decodeTableWord 32 0b00000011000000000000000000000000 = some (.final []) ∧
  decodeTableWord 32 0b00000010000000000000000000000011 = some (.update [0, 0, 0]) ∧
  decodeTableWord 32 0b00100000000000000000000000100000 = some (.hex (List.replicate 32 0)) ∧
  decodeTableWord 32 0b00010000000000000000000001100000 = some (.xform (List.replicate 96 0)) ∧
  decode [0x02, 0x00, 0x00, 0x03, 0x61, 0x62, 0x63] = .command (.update [0x61, 0x62, 0x63]) [] ∧
  decode [0xff, 0x00, 0x00, 0x02, 0xde, 0xad, 0x03] = .reserved 0xff 2 [0x03]

/-- R52, R61: a step at a complete frame with an assigned opcode is `exec` of that command, after the frame has been taken from the
input; a step with an incomplete frame is no step (R71; log 4). -/
def Obligations.StepRunsTheDecodedCommand : Prop :=
  ∀ s : State, s.resetPin = false →
    (∀ (i : Instr) (rest : List Byte), decode s.input = .command i rest →
      step s = exec i { s with input := rest }) ∧
    (∀ (opc : Byte) (len : Nat) (rest : List Byte), decode s.input = .reserved opc len rest →
      step s = .next (raise .illegalCommand { s with input := rest })) ∧
    (∀ k : Nat, decode s.input = .wait k → step s = .next s)

/-- R71: with any proper part of a frame in the input, the engine emits nothing and changes nothing. -/
def Obligations.IncompleteFrameWaits : Prop :=
  ∀ (s : State) (opc : Byte) (payload : List Byte) (k : Nat),
    s.resetPin = false → payload.length ≤ Config.lenMax → k < 4 + payload.length →
    s.input = (frameBytes opc payload).take k → step s = .next s

/-- R181, R182: the order of checks for every frame, and what an error does: the frame is taken, one error response is written, and
nothing else changes. -/
def Obligations.HeaderChecks : Prop :=
  ∀ (s : State) (opc : Byte) (payload rest : List Byte),
    s.Inv → s.resetPin = false → payload.length ≤ Config.lenMax →
    s.input = frameBytes opc payload ++ rest →
    (opc ∉ assignedOpcodes →
      step s = .next { s with input := rest, output := s.output ++ [0x03, 0, 0, 0] }) ∧
    (∀ n : Nat, fixedLen opc = some n → payload.length ≠ n →
      step s = .next { s with input := rest, output := s.output ++
        [if opc = 0x11 ∨ opc = 0x13 then 0x02 else 0x04, 0, 0, 0] }) ∧
    (opc ∈ assignedOpcodes → (∀ n : Nat, fixedLen opc = some n → payload.length = n) →
      ∃ t bytes, step s = .next t ∧ t.output = s.output ++ responseBytes 0x00 bytes)

/-- R66, R67, R68, R177, R180: every complete frame is taken whole, `4 + LEN` bytes, whatever its opcode, and answered by exactly one
response: status 00 with the length the command gives, or status 02, 03 or 04 with no payload and no other change. -/
def Obligations.OneResponsePerFrame : Prop :=
  ∀ (s : State) (opc : Byte) (payload rest : List Byte),
    s.Inv → s.resetPin = false → payload.length ≤ Config.lenMax →
    s.input = frameBytes opc payload ++ rest →
    ∃ t status bytes, step s = .next t ∧ t.input = rest ∧
      t.output = s.output ++ toBe32 (status ++ BitVec.ofNat 24 bytes.length) ++ bytes ∧
      ((status = 0x00 ∧ bytes.length = okRlen opc) ∨
       ((status = 0x02 ∨ status = 0x03 ∨ status = 0x04) ∧ bytes = [] ∧
         t = { s with input := rest, output := s.output ++ [status, 0, 0, 0] }))

/-- R74: on every complete frame the engine answers and leaves what the typed view says. -/
def Obligations.StepMatchesTypedView : Prop :=
  ∀ (s : State) (opc : Byte) (payload rest : List Byte),
    s.Inv → s.resetPin = false → payload.length ≤ Config.lenMax →
    s.input = frameBytes opc payload ++ rest →
    ∃ t, step s = .next t ∧ t.input = rest ∧ t.resetPin = false ∧
      t.output = s.output ++ ((Cmd.ofFrame opc payload).run s.ctx.typed).1.bytes ∧
      t.ctx.typed = ((Cmd.ofFrame opc payload).run s.ctx.typed).2 ∧
      t.ctx.bufLen.toNat = t.ctx.typed.buf.length

/-! ## The whole machine -/

/-- R32: the state after reset. -/
def Obligations.ResetState : Prop :=
  State.reset.ctx.h = IV ∧ State.reset.ctx.bufLen = 0 ∧ State.reset.ctx.bitLen = 0 ∧
  State.reset.ctx.mem = [] ∧ State.reset.input = [] ∧ State.reset.output = [] ∧
  State.reset.ctx.phase = .empty ∧ State.reset.Inv

/-- R200: the reset input, in any state and with any bytes in the streams. That the engine samples it before a step and that the step
releases it are the model's choices (log 5). -/
def Obligations.ResetInput : Prop :=
  ∀ s : State, ∃ t, step (assertReset s) = .next t ∧
    t.ctx.h = IV ∧ t.ctx.bufLen = 0 ∧ t.ctx.bitLen = 0 ∧ t.ctx.mem = [] ∧
    t.input = [] ∧ t.output = [] ∧ t.resetPin = false

/-- R30 (i), (ii), R20 to R23: every step keeps the context invariant, from every state that has it. -/
def Obligations.StepKeepsInvariant : Prop :=
  ∀ s t : State, s.Inv → step s = .next t → t.Inv

/-- R73, R176: no state with the invariant, and no bytes in the input, make the engine stop. -/
def Obligations.EngineNeverStops : Prop :=
  ∀ s : State, s.Inv → ∃ t, step s = .next t

/-- R31, R33: what the working registers (and the model's counter) hold never reaches a response, the context or a stop: two states
that differ in nothing else step alike. -/
def Obligations.WorkingStateIsNeverRead : Prop :=
  ∀ s s' : State, s.visible = s'.visible → sameVisible (step s) (step s')

/-- R52, R210: the host may send ahead, and may take responses late: with a complete frame in the input, bytes written after it and
response bytes not yet taken change nothing of what the step does. -/
def Obligations.SendingAhead : Prop :=
  ∀ s t : State, s.resetPin = false → (∀ k : Nat, decode s.input ≠ .wait k) → step s = .next t →
    (∀ bs : List Byte, step (hostWrite bs s) = .next (hostWrite bs t)) ∧
    (∀ n : Nat, n ≤ s.output.length → step (hostRead n s).2 = .next (hostRead n t).2)

/-- R196, R57: in any interleaving of the steps of several instances, each instance comes to the state it would reach alone. -/
def Obligations.InstancesAreIndependent : Prop :=
  ∀ (schedule : List Nat) (y : System) (j : Nat),
    (y.run schedule).engines[j]? = (y.engines[j]?).map (ticks (schedule.count j))
end

