-- ==== Sys2Proof/Laws/Memory.lean ====
section
/-! SUPPORT. The laws of the byte space: read after write, and that every write keeps the canonical form. -/

namespace Sys2Proof.Laws

open Sys2Proof.Machine

theorem get?_set_self (m : Memory) (a : Nat) (x : Byte) : (m.set a x).get? a = some x := by
  induction m with
  | nil => simp [Memory.set, Memory.get?]
  | cons c m ih =>
    obtain ⟨k, b⟩ := c
    unfold Memory.set
    split
    · simp [Memory.get?]
    · split
      · simp [Memory.get?]
      · rename_i h1 h2
        simp [Memory.get?, Ne.symm h2, ih]

theorem get?_set_ne (m : Memory) {a a' : Nat} (x : Byte) (h : a' ≠ a) :
    (m.set a x).get? a' = m.get? a' := by
  induction m with
  | nil => simp [Memory.set, Memory.get?, Ne.symm h]
  | cons c m ih =>
    obtain ⟨k, b⟩ := c
    unfold Memory.set
    split
    · simp [Memory.get?, Ne.symm h]
    · split
      · rename_i h2
        subst h2
        simp [Memory.get?, Ne.symm h]
      · simp only [Memory.get?, ih]

/-- A byte outside the written range reads as before. -/
theorem get?_setBytes_outside (xs : List Byte) (m : Memory) (a a' : Nat)
    (h : a' < a ∨ a + xs.length ≤ a') : (m.setBytes a xs).get? a' = m.get? a' := by
  induction xs generalizing m a with
  | nil => rfl
  | cons x xs ih =>
    simp only [List.length_cons] at h
    rw [Memory.setBytes, ih _ _ (by omega), get?_set_ne _ _ (by omega)]

/-- A byte inside the written range reads as written. -/
theorem get?_setBytes_inside (xs : List Byte) (m : Memory) (a i : Nat) (h : i < xs.length) :
    (m.setBytes a xs).get? (a + i) = some xs[i] := by
  induction xs generalizing m a i with
  | nil => simp at h
  | cons x xs ih =>
    cases i with
    | zero =>
      rw [Memory.setBytes, get?_setBytes_outside _ _ _ _ (by omega)]
      simpa using get?_set_self m a x
    | succ i =>
      have := ih (m.set a x) (a + 1) i (by simpa using h)
      rw [Memory.setBytes, show a + (i + 1) = a + 1 + i by omega, this]
      simp

/-- `memRead` succeeds with the bytes that every address of the range holds. -/
theorem getBytes_of_get? (bs : List Byte) (m : Memory) (a : Nat)
    (h : ∀ i (hi : i < bs.length), m.get? (a + i) = some bs[i]) :
    m.getBytes a bs.length = .ok bs := by
  induction bs generalizing a with
  | nil => rfl
  | cons b bs ih =>
    have h0 := h 0 (by simp)
    have hr := ih (a + 1) fun i hi => by
      have := h (i + 1) (by simpa using hi)
      rw [show a + 1 + i = a + (i + 1) by omega, this]
      simp
    simp only [Nat.add_zero] at h0
    simp [Memory.getBytes, h0, hr]

/-- The addresses of a memory in canonical form that one write touches. -/
theorem mem_map_fst_set (m : Memory) (a k : Nat) (x : Byte) :
    k ∈ (m.set a x).map Prod.fst ↔ k = a ∨ k ∈ m.map Prod.fst := by
  induction m with
  | nil => simp [Memory.set]
  | cons c m ih =>
    obtain ⟨j, b⟩ := c
    unfold Memory.set
    split
    · simp
    · split
      · rename_i h2
        subst h2
        simp
      · simp only [List.map_cons, List.mem_cons, ih]
        tauto

theorem wf_iff (m : Memory) :
    m.wf = true ↔ (m.map Prod.fst).Pairwise (· < ·) ∧ ∀ k ∈ m.map Prod.fst, k < memSize := by
  simp [Memory.wf]

/-- One write keeps the canonical form. -/
theorem set_keeps_wf (m : Memory) (a : Nat) (x : Byte) (ha : a < memSize) (h : m.wf = true) :
    (m.set a x).wf = true := by
  rw [wf_iff] at h ⊢
  obtain ⟨hs, hb⟩ := h
  refine ⟨?_, fun k hk => ?_⟩
  · clear hb
    induction m with
    | nil => simp [Memory.set]
    | cons c m ih =>
      obtain ⟨j, b⟩ := c
      simp only [List.map_cons, List.pairwise_cons] at hs
      unfold Memory.set
      split
      · rename_i h1
        simp only [List.map_cons, List.pairwise_cons, List.mem_cons]
        refine ⟨fun k hk => ?_, hs⟩
        rcases hk with rfl | hk
        · exact h1
        · exact h1.trans (hs.1 k hk)
      · split
        · rename_i h2
          subst h2
          simpa using hs
        · simp only [List.map_cons, List.pairwise_cons]
          refine ⟨fun k hk => ?_, ih hs.2⟩
          rcases (mem_map_fst_set m a k x).1 hk with rfl | hk
          · omega
          · exact hs.1 k hk
  · rcases (mem_map_fst_set m a k x).1 hk with rfl | hk
    · exact ha
    · exact hb k hk

/-- Writing bytes inside the byte space keeps the canonical form. -/
theorem setBytes_keeps_wf (xs : List Byte) (m : Memory) (a : Nat) (ha : a + xs.length ≤ memSize)
    (h : m.wf = true) : (m.setBytes a xs).wf = true := by
  induction xs generalizing m a with
  | nil => exact h
  | cons x xs ih =>
    simp only [List.length_cons] at ha
    exact ih _ _ (by omega) (set_keeps_wf m a x (by omega) h)

/-- What `memWrite` can do: it writes the bytes, or faults because the range leaves the byte space. -/
theorem memWrite_cases {m : Memory} {a : Nat} {xs : List Byte} {r : Except Fault Memory}
    (h : memWrite m a xs = r) :
    (a + xs.length ≤ memSize ∧ r = .ok (m.setBytes a xs)) ∨
    (memSize < a + xs.length ∧ r = .error (.memRange a xs.length)) := by
  unfold memWrite at h
  split at h
  · exact .inl ⟨‹_›, h.symm⟩
  · exact .inr ⟨by omega, h.symm⟩

/-- `MemWrite` keeps the canonical form. -/
theorem memWrite_keeps_wf {m m' : Memory} {a : Nat} {xs : List Byte} (hm : m.wf = true)
    (h : memWrite m a xs = .ok m') : m'.wf = true := by
  rcases memWrite_cases h with ⟨ha, hr⟩ | ⟨_, hr⟩
  · cases hr
    exact setBytes_keeps_wf xs m a ha hm
  · cases hr

/-- The empty buffer has the canonical form. -/
theorem wf_nil : Memory.wf [] = true := rfl

theorem wf_reset : State.reset.ctx.mem.wf = true := rfl

end Sys2Proof.Laws
end

