-- ==== Sys2Proof/Laws/Buffer.lean ====
section
/-! SUPPORT. The buffer as a byte sequence: a memory that holds exactly the bytes from one address up (10_state.md R22), and what the
rules' reads and writes do to it. -/

namespace Sys2Proof.Laws

open Sys2Proof.Machine

/-- The memory that holds exactly the bytes `bs` from address `a` up. -/
def cells : Nat → List Byte → Memory
  | _, [] => []
  | a, b :: bs => (a, b) :: cells (a + 1) bs

@[simp] theorem cells_nil (a : Nat) : cells a [] = [] := rfl

@[simp] theorem cells_bytes (a : Nat) (bs : List Byte) : (cells a bs).map Prod.snd = bs := by
  induction bs generalizing a with
  | nil => rfl
  | cons b bs ih => simp [cells, ih]

@[simp] theorem cells_addrs (a : Nat) (bs : List Byte) :
    (cells a bs).map Prod.fst = List.range' a bs.length := by
  induction bs generalizing a with
  | nil => rfl
  | cons b bs ih => simp [cells, ih, List.range'_succ]

theorem cells_append (a : Nat) (xs ys : List Byte) :
    cells a (xs ++ ys) = cells a xs ++ cells (a + xs.length) ys := by
  induction xs generalizing a with
  | nil => simp
  | cons x xs ih => simp [cells, ih, Nat.add_assoc, Nat.add_comm 1]

/-- A memory whose addresses are a run from `a` is the cells of its bytes. -/
theorem eq_cells_of_addrs (m : Memory) (a : Nat) (h : m.map Prod.fst = List.range' a m.length) :
    m = cells a (m.map Prod.snd) := by
  induction m generalizing a with
  | nil => rfl
  | cons c m ih =>
    simp only [List.map_cons, List.length_cons, List.range'_succ, List.cons.injEq] at h
    rw [List.map_cons, cells, ← ih (a + 1) h.2, ← h.1]

/-- The byte space of a context that meets the invariant is its buffered bytes from address 0. -/
theorem inv_mem {c : Context} (h : c.Inv) : c.mem = cells 0 c.buffered := by
  apply eq_cells_of_addrs
  have hl : c.mem.length = c.bufLen.toNat := by
    simpa using congrArg List.length h.2.2
  rw [h.2.2, hl, List.range_eq_range']

theorem inv_buffered_length {c : Context} (h : c.Inv) : c.buffered.length = c.bufLen.toNat := by
  have := congrArg List.length h.2.2
  simpa [Context.buffered] using this

/-- A context built from buffered bytes meets the invariant. -/
theorem inv_of_cells {hs : HashState} {bs : List Byte} {n : BitVec 7} {d : Dword}
    (hl : bs.length = n.toNat) (hn : n.toNat < 64) (hd : d.toNat % 512 = 0) :
    Context.Inv { h := hs, mem := cells 0 bs, bufLen := n, bitLen := d } :=
  ⟨hn, hd, by simp [hl, List.range_eq_range']⟩

/-- A context that meets the invariant holds its byte space in canonical form. -/
theorem inv_wf {c : Context} (h : c.Inv) : c.mem.wf = true := by
  rw [wf_iff, h.2.2]
  refine ⟨List.pairwise_lt_range, fun k hk => ?_⟩
  have h1 := h.1
  rw [List.mem_range] at hk
  simp only [memSize]
  omega

theorem set_above (m : Memory) (a : Nat) (x : Byte) (h : ∀ k ∈ m.map Prod.fst, k < a) :
    m.set a x = m ++ [(a, x)] := by
  induction m with
  | nil => rfl
  | cons c m ih =>
    obtain ⟨k, b⟩ := c
    have hk : k < a := h k (by simp)
    rw [Memory.set, if_neg (by omega), if_neg (by omega), ih fun j hj => h j (by simp [hj])]
    rfl

/-- Writing at the end of a run of bytes appends to it. -/
theorem setBytes_end (a : Nat) (bs xs : List Byte) :
    (cells a bs).setBytes (a + bs.length) xs = cells a (bs ++ xs) := by
  induction xs generalizing bs with
  | nil => simp [Memory.setBytes]
  | cons x xs ih =>
    have hs : (cells a bs).set (a + bs.length) x = cells a (bs ++ [x]) := by
      rw [set_above _ _ _ fun k hk => ?_, cells_append]
      · rfl
      · rw [cells_addrs, List.mem_range'_1] at hk
        omega
    rw [Memory.setBytes, hs]
    simpa [Nat.add_assoc] using ih (bs ++ [x])

/-- Writing at the end of the buffer, inside the byte space, appends. -/
theorem memWrite_end (bs xs : List Byte) (h : bs.length + xs.length ≤ memSize) :
    memWrite (cells 0 bs) bs.length xs = .ok (cells 0 (bs ++ xs)) := by
  rw [memWrite, if_pos h]
  simpa using setBytes_end 0 bs xs

theorem get?_cells (a i : Nat) (bs : List Byte) (h : i < bs.length) :
    (cells a bs).get? (a + i) = some bs[i] := by
  induction bs generalizing a i with
  | nil => simp at h
  | cons b bs ih =>
    cases i with
    | zero => simp [cells, Memory.get?]
    | succ i =>
      have := ih (a + 1) i (by simpa using h)
      rw [show a + (i + 1) = a + 1 + i by omega]
      simp [cells, Memory.get?, this, show ¬ a = a + 1 + i by omega]

/-- Reading inside the buffer gives its bytes. -/
theorem memRead_cells (bs : List Byte) (off n : Nat) (h : off + n ≤ bs.length)
    (hb : bs.length ≤ memSize) : memRead (cells 0 bs) off n = .ok ((bs.drop off).take n) := by
  have hl : ((bs.drop off).take n).length = n := by simp; omega
  rw [memRead, if_pos (by omega)]
  conv_lhs => rw [← hl]
  refine getBytes_of_get? _ _ _ fun i hi => ?_
  have := get?_cells 0 (off + i) bs (by omega)
  simp only [Nat.zero_add] at this
  rw [this]
  simp

end Sys2Proof.Laws
end

