-- ==== Sys2Proof/Laws/Decode.lean ====
section
/-! SUPPORT. The header and the frame (30_encoding.md R61 to R63): what the fields of a header read as, and how long things are. -/

namespace Sys2Proof.Laws

open Sys2Proof Sys2Proof.Machine

@[simp] theorem toBe32_length (w : Word) : (toBe32 w).length = 4 := rfl

@[simp] theorem toBe64_length (d : Dword) : (toBe64 d).length = 8 := rfl

@[simp] theorem headerBytes_length (top : Byte) (len : Nat) : (headerBytes top len).length = 4 := rfl

@[simp] theorem zeros_length (n : Nat) : (zeros n).length = n := by simp [zeros]

theorem headerOpc_pack (top : Byte) (len : BitVec 24) : headerOpc (top ++ len) = top := by
  apply BitVec.eq_of_getLsbD_eq
  intro i hi
  rw [headerOpc, BitVec.getLsbD_extractLsb', BitVec.getLsbD_append]
  simp [hi]

theorem headerLen_pack (top : Byte) (len : BitVec 24) : headerLen (top ++ len) = len.toNat := by
  have h : ((top ++ len : Word).extractLsb' 0 24) = len := by
    apply BitVec.eq_of_getLsbD_eq
    intro i hi
    rw [BitVec.getLsbD_extractLsb', BitVec.getLsbD_append]
    simp [hi]
  rw [headerLen, h]

/-- The first byte of a header is its top field. -/
theorem headerBytes_head (top : Byte) (len : Nat) : (headerBytes top len).head? = some top := by
  exact congrArg some (headerOpc_pack top (BitVec.ofNat 24 len))

/-- Four bytes cut from a word make the word again. -/
theorem be32_split (w : Word) :
    be32 (w.extractLsb' 24 8) (w.extractLsb' 16 8) (w.extractLsb' 8 8) (w.extractLsb' 0 8) = w := by
  apply BitVec.eq_of_getLsbD_eq
  intro i hi
  simp only [be32, BitVec.getLsbD_append, BitVec.getLsbD_extractLsb']
  rcases (by omega : i < 8 ∨ (8 ≤ i ∧ i < 16) ∨ (16 ≤ i ∧ i < 24) ∨ (24 ≤ i ∧ i < 32)) with h | h | h | h
  · simp [h]
  · simp [show ¬ i < 8 by omega, show i - 8 < 8 by omega, show 8 + (i - 8) = i by omega]
  · simp [show ¬ i < 8 by omega, show ¬ i - 8 < 8 by omega, show i - 8 - 8 < 8 by omega,
      show 16 + (i - 8 - 8) = i by omega]
  · simp [show ¬ i < 8 by omega, show ¬ i - 8 < 8 by omega, show ¬ i - 8 - 8 < 8 by omega,
      show i - 8 - 8 - 8 < 8 by omega, show 24 + (i - 8 - 8 - 8) = i by omega]

/-- The decoder behind a header: its opcode, and its length when it fits 24 bits. -/
theorem decode_headerBytes (top : Byte) (len : Nat) (tail : List Byte) :
    decode (headerBytes top len ++ tail) = decodeBody (top ++ BitVec.ofNat 24 len) tail := by
  have h : headerBytes top len ++ tail =
      (top ++ BitVec.ofNat 24 len : Word).extractLsb' 24 8 :: (top ++ BitVec.ofNat 24 len : Word).extractLsb' 16 8 ::
      (top ++ BitVec.ofNat 24 len : Word).extractLsb' 8 8 :: (top ++ BitVec.ofNat 24 len : Word).extractLsb' 0 8 ::
      tail := rfl
  rw [h, decode, be32_split]

/-- The opcode map gives every command its own constructor. -/
theorem ofOpcode_opcode (i : Instr) : ofOpcode i.opcode i.payload = some i := by
  cases i <;> rfl

/-- A command the opcode map answers has that opcode and that payload. -/
theorem ofOpcode_some {opc : Byte} {p : List Byte} {i : Instr} (h : ofOpcode opc p = some i) :
    i.opcode = opc ∧ i.payload = p := by
  unfold ofOpcode at h
  split_ifs at h <;> cases h <;> subst_vars <;> exact ⟨rfl, rfl⟩

theorem frameBytes_length (opc : Byte) (p : List Byte) : (frameBytes opc p).length = 4 + p.length := by
  simp [frameBytes]

theorem encode_eq_frameBytes (i : Instr) : encode i = frameBytes i.opcode i.payload := rfl

end Sys2Proof.Laws
end

