-- ==== Sys2Proof/Laws/State.lean ====
section
/-! SUPPORT. One lemma per field per update of the state, each true by definition, so that no proof unfolds a record update. -/

namespace Sys2Proof.Laws

open Sys2Proof.Machine

@[simp] theorem emit_ctx (c : Byte) (bs : List Byte) (s : State) : (emit c bs s).ctx = s.ctx := rfl
@[simp] theorem emit_scalar (c : Byte) (bs : List Byte) (s : State) : (emit c bs s).scalar = s.scalar := rfl
@[simp] theorem emit_vector (c : Byte) (bs : List Byte) (s : State) : (emit c bs s).vector = s.vector := rfl
@[simp] theorem emit_tm (c : Byte) (bs : List Byte) (s : State) : (emit c bs s).tm = s.tm := rfl
@[simp] theorem emit_input (c : Byte) (bs : List Byte) (s : State) : (emit c bs s).input = s.input := rfl
@[simp] theorem emit_output (c : Byte) (bs : List Byte) (s : State) : (emit c bs s).output = s.output ++ responseBytes c bs := rfl
@[simp] theorem emit_resetPin (c : Byte) (bs : List Byte) (s : State) : (emit c bs s).resetPin = s.resetPin := rfl
@[simp] theorem emit_draws (c : Byte) (bs : List Byte) (s : State) : (emit c bs s).draws = s.draws := rfl

@[simp] theorem respondOk_ctx (bs : List Byte) (s : State) : (respondOk bs s).ctx = s.ctx := rfl
@[simp] theorem respondOk_scalar (bs : List Byte) (s : State) : (respondOk bs s).scalar = s.scalar := rfl
@[simp] theorem respondOk_vector (bs : List Byte) (s : State) : (respondOk bs s).vector = s.vector := rfl
@[simp] theorem respondOk_tm (bs : List Byte) (s : State) : (respondOk bs s).tm = s.tm := rfl
@[simp] theorem respondOk_input (bs : List Byte) (s : State) : (respondOk bs s).input = s.input := rfl
@[simp] theorem respondOk_output (bs : List Byte) (s : State) : (respondOk bs s).output = s.output ++ responseBytes okCode bs := rfl
@[simp] theorem respondOk_resetPin (bs : List Byte) (s : State) : (respondOk bs s).resetPin = s.resetPin := rfl
@[simp] theorem respondOk_draws (bs : List Byte) (s : State) : (respondOk bs s).draws = s.draws := rfl

@[simp] theorem raise_ctx (e : Error) (s : State) : (raise e s).ctx = s.ctx := rfl
@[simp] theorem raise_scalar (e : Error) (s : State) : (raise e s).scalar = s.scalar := rfl
@[simp] theorem raise_vector (e : Error) (s : State) : (raise e s).vector = s.vector := rfl
@[simp] theorem raise_tm (e : Error) (s : State) : (raise e s).tm = s.tm := rfl
@[simp] theorem raise_input (e : Error) (s : State) : (raise e s).input = s.input := rfl
@[simp] theorem raise_output (e : Error) (s : State) : (raise e s).output = s.output ++ responseBytes e.code [] := rfl
@[simp] theorem raise_resetPin (e : Error) (s : State) : (raise e s).resetPin = s.resetPin := rfl
@[simp] theorem raise_draws (e : Error) (s : State) : (raise e s).draws = s.draws := rfl

@[simp] theorem dropScalar_ctx (s : State) : (dropScalar s).ctx = s.ctx := rfl
@[simp] theorem dropScalar_scalar (s : State) : (dropScalar s).scalar = freeScalar s.draws := rfl
@[simp] theorem dropScalar_vector (s : State) : (dropScalar s).vector = s.vector := rfl
@[simp] theorem dropScalar_tm (s : State) : (dropScalar s).tm = s.tm := rfl
@[simp] theorem dropScalar_input (s : State) : (dropScalar s).input = s.input := rfl
@[simp] theorem dropScalar_output (s : State) : (dropScalar s).output = s.output := rfl
@[simp] theorem dropScalar_resetPin (s : State) : (dropScalar s).resetPin = s.resetPin := rfl
@[simp] theorem dropScalar_draws (s : State) : (dropScalar s).draws = s.draws + 1 := rfl

@[simp] theorem dropVector_ctx (s : State) : (dropVector s).ctx = s.ctx := rfl
@[simp] theorem dropVector_scalar (s : State) : (dropVector s).scalar = s.scalar := rfl
@[simp] theorem dropVector_vector (s : State) : (dropVector s).vector = freeVector s.draws := rfl
@[simp] theorem dropVector_tm (s : State) : (dropVector s).tm = s.tm := rfl
@[simp] theorem dropVector_input (s : State) : (dropVector s).input = s.input := rfl
@[simp] theorem dropVector_output (s : State) : (dropVector s).output = s.output := rfl
@[simp] theorem dropVector_resetPin (s : State) : (dropVector s).resetPin = s.resetPin := rfl
@[simp] theorem dropVector_draws (s : State) : (dropVector s).draws = s.draws + 1 := rfl

@[simp] theorem dropMatrix_ctx (s : State) : (dropMatrix s).ctx = s.ctx := rfl
@[simp] theorem dropMatrix_scalar (s : State) : (dropMatrix s).scalar = s.scalar := rfl
@[simp] theorem dropMatrix_vector (s : State) : (dropMatrix s).vector = s.vector := rfl
@[simp] theorem dropMatrix_tm (s : State) : (dropMatrix s).tm = freeMatrix s.draws := rfl
@[simp] theorem dropMatrix_input (s : State) : (dropMatrix s).input = s.input := rfl
@[simp] theorem dropMatrix_output (s : State) : (dropMatrix s).output = s.output := rfl
@[simp] theorem dropMatrix_resetPin (s : State) : (dropMatrix s).resetPin = s.resetPin := rfl
@[simp] theorem dropMatrix_draws (s : State) : (dropMatrix s).draws = s.draws + 1 := rfl

@[simp] theorem runScalar_ctx (st : HashState) (b : Block) (s : State) : ((runScalar st b s).2).ctx = s.ctx := rfl
@[simp] theorem runScalar_scalar (st : HashState) (b : Block) (s : State) : ((runScalar st b s).2).scalar = freeScalar s.draws := rfl
@[simp] theorem runScalar_vector (st : HashState) (b : Block) (s : State) : ((runScalar st b s).2).vector = s.vector := rfl
@[simp] theorem runScalar_tm (st : HashState) (b : Block) (s : State) : ((runScalar st b s).2).tm = s.tm := rfl
@[simp] theorem runScalar_input (st : HashState) (b : Block) (s : State) : ((runScalar st b s).2).input = s.input := rfl
@[simp] theorem runScalar_output (st : HashState) (b : Block) (s : State) : ((runScalar st b s).2).output = s.output := rfl
@[simp] theorem runScalar_resetPin (st : HashState) (b : Block) (s : State) : ((runScalar st b s).2).resetPin = s.resetPin := rfl
@[simp] theorem runScalar_draws (st : HashState) (b : Block) (s : State) : ((runScalar st b s).2).draws = s.draws + 1 := rfl

@[simp] theorem runTranspose_ctx (m : Matrix) (s : State) : ((runTranspose m s).2).ctx = s.ctx := rfl
@[simp] theorem runTranspose_scalar (m : Matrix) (s : State) : ((runTranspose m s).2).scalar = s.scalar := rfl
@[simp] theorem runTranspose_vector (m : Matrix) (s : State) : ((runTranspose m s).2).vector = s.vector := rfl
@[simp] theorem runTranspose_tm (m : Matrix) (s : State) : ((runTranspose m s).2).tm = freeMatrix s.draws := rfl
@[simp] theorem runTranspose_input (m : Matrix) (s : State) : ((runTranspose m s).2).input = s.input := rfl
@[simp] theorem runTranspose_output (m : Matrix) (s : State) : ((runTranspose m s).2).output = s.output := rfl
@[simp] theorem runTranspose_resetPin (m : Matrix) (s : State) : ((runTranspose m s).2).resetPin = s.resetPin := rfl
@[simp] theorem runTranspose_draws (m : Matrix) (s : State) : ((runTranspose m s).2).draws = s.draws + 1 := rfl

@[simp] theorem runVector_ctx (sts : Vector HashState 8) (bs : Vector Block 8) (s : State) : ((runVector sts bs s).2).ctx = s.ctx := rfl
@[simp] theorem runVector_scalar (sts : Vector HashState 8) (bs : Vector Block 8) (s : State) : ((runVector sts bs s).2).scalar = s.scalar := rfl
@[simp] theorem runVector_vector (sts : Vector HashState 8) (bs : Vector Block 8) (s : State) : ((runVector sts bs s).2).vector = freeVector s.draws := rfl
@[simp] theorem runVector_tm (sts : Vector HashState 8) (bs : Vector Block 8) (s : State) : ((runVector sts bs s).2).tm = freeMatrix (s.draws + 1) := rfl
@[simp] theorem runVector_input (sts : Vector HashState 8) (bs : Vector Block 8) (s : State) : ((runVector sts bs s).2).input = s.input := rfl
@[simp] theorem runVector_output (sts : Vector HashState 8) (bs : Vector Block 8) (s : State) : ((runVector sts bs s).2).output = s.output := rfl
@[simp] theorem runVector_resetPin (sts : Vector HashState 8) (bs : Vector Block 8) (s : State) : ((runVector sts bs s).2).resetPin = s.resetPin := rfl
@[simp] theorem runVector_draws (sts : Vector HashState 8) (bs : Vector Block 8) (s : State) : ((runVector sts bs s).2).draws = s.draws + 2 := rfl

@[simp] theorem applyReset_ctx (s : State) : (applyReset s).ctx = Context.initial := rfl
@[simp] theorem applyReset_scalar (s : State) : (applyReset s).scalar = freeScalar s.draws := rfl
@[simp] theorem applyReset_vector (s : State) : (applyReset s).vector = freeVector (s.draws + 1) := rfl
@[simp] theorem applyReset_tm (s : State) : (applyReset s).tm = freeMatrix (s.draws + 2) := rfl
@[simp] theorem applyReset_input (s : State) : (applyReset s).input = [] := rfl
@[simp] theorem applyReset_output (s : State) : (applyReset s).output = [] := rfl
@[simp] theorem applyReset_resetPin (s : State) : (applyReset s).resetPin = false := rfl
@[simp] theorem applyReset_draws (s : State) : (applyReset s).draws = s.draws + 3 := rfl

@[simp] theorem hostWrite_ctx (bs : List Byte) (s : State) : (hostWrite bs s).ctx = s.ctx := rfl
@[simp] theorem hostWrite_scalar (bs : List Byte) (s : State) : (hostWrite bs s).scalar = s.scalar := rfl
@[simp] theorem hostWrite_vector (bs : List Byte) (s : State) : (hostWrite bs s).vector = s.vector := rfl
@[simp] theorem hostWrite_tm (bs : List Byte) (s : State) : (hostWrite bs s).tm = s.tm := rfl
@[simp] theorem hostWrite_input (bs : List Byte) (s : State) : (hostWrite bs s).input = s.input ++ bs := rfl
@[simp] theorem hostWrite_output (bs : List Byte) (s : State) : (hostWrite bs s).output = s.output := rfl
@[simp] theorem hostWrite_resetPin (bs : List Byte) (s : State) : (hostWrite bs s).resetPin = s.resetPin := rfl
@[simp] theorem hostWrite_draws (bs : List Byte) (s : State) : (hostWrite bs s).draws = s.draws := rfl

@[simp] theorem hostRead_ctx (n : Nat) (s : State) : ((hostRead n s).2).ctx = s.ctx := rfl
@[simp] theorem hostRead_scalar (n : Nat) (s : State) : ((hostRead n s).2).scalar = s.scalar := rfl
@[simp] theorem hostRead_vector (n : Nat) (s : State) : ((hostRead n s).2).vector = s.vector := rfl
@[simp] theorem hostRead_tm (n : Nat) (s : State) : ((hostRead n s).2).tm = s.tm := rfl
@[simp] theorem hostRead_input (n : Nat) (s : State) : ((hostRead n s).2).input = s.input := rfl
@[simp] theorem hostRead_output (n : Nat) (s : State) : ((hostRead n s).2).output = s.output.drop n := rfl
@[simp] theorem hostRead_resetPin (n : Nat) (s : State) : ((hostRead n s).2).resetPin = s.resetPin := rfl
@[simp] theorem hostRead_draws (n : Nat) (s : State) : ((hostRead n s).2).draws = s.draws := rfl

@[simp] theorem assertReset_ctx (s : State) : (assertReset s).ctx = s.ctx := rfl
@[simp] theorem assertReset_scalar (s : State) : (assertReset s).scalar = s.scalar := rfl
@[simp] theorem assertReset_vector (s : State) : (assertReset s).vector = s.vector := rfl
@[simp] theorem assertReset_tm (s : State) : (assertReset s).tm = s.tm := rfl
@[simp] theorem assertReset_input (s : State) : (assertReset s).input = s.input := rfl
@[simp] theorem assertReset_output (s : State) : (assertReset s).output = s.output := rfl
@[simp] theorem assertReset_resetPin (s : State) : (assertReset s).resetPin = true := rfl
@[simp] theorem assertReset_draws (s : State) : (assertReset s).draws = s.draws := rfl

/-! The results of the units. -/

theorem runScalar_result (st : HashState) (b : Block) (s : State) :
    (runScalar st b s).1 = (s.scalar.run st b).result st := rfl

theorem runTranspose_result (m : Matrix) (s : State) : (runTranspose m s).1 = transpose m := rfl

theorem runVector_result (sts : Vector HashState 8) (bs : Vector Block 8) (s : State) :
    (runVector sts bs s).1 = unpackStates (s.vector.run sts bs).vs := rfl

/-! The registers of a context. -/

@[simp] theorem initial_h : Context.initial.h = IV := rfl
@[simp] theorem initial_mem : Context.initial.mem = [] := rfl
@[simp] theorem initial_bufLen : Context.initial.bufLen = 0 := rfl
@[simp] theorem initial_bitLen : Context.initial.bitLen = 0 := rfl
@[simp] theorem initial_typed : Context.initial.typed = Hasher.initial := rfl
@[simp] theorem typed_h (c : Context) : c.typed.h = c.h := rfl
@[simp] theorem typed_buf (c : Context) : c.typed.buf = c.buffered := rfl
@[simp] theorem typed_bitLen (c : Context) : c.typed.bitLen = c.bitLen := rfl

end Sys2Proof.Laws
end

