-- ==== Sys2Proof/Laws/Ops.lean ====
section
/-! SUPPORT. For each shared operation, once, everything it can do (Machine/Ops.lean, Machine/Hasher.lean, Machine/Step.lean), so that
proofs cite these and do not unfold the operation. -/

namespace Sys2Proof.Laws

open Sys2Proof Sys2Proof.Machine

/-! ### The byte space -/

/-- What a read of `n` bytes gives: as many bytes, each the one its address holds. -/
theorem getBytes_ok {m : Memory} {a n : Nat} {bs : List Byte} (h : m.getBytes a n = .ok bs) :
    bs.length = n ∧ ∀ i, i < n → m.get? (a + i) = bs[i]? := by
  induction n generalizing a bs with
  | zero =>
    cases h
    exact ⟨rfl, fun i hi => absurd hi (Nat.not_lt_zero i)⟩
  | succ n ih =>
    unfold Memory.getBytes at h
    split at h
    · cases h
    · rename_i b hb
      split at h
      · cases h
      · rename_i cs hc
        cases h
        obtain ⟨hl, hg⟩ := ih hc
        refine ⟨by simp [hl], fun i hi => ?_⟩
        cases i with
        | zero => simpa using hb
        | succ i =>
          rw [show a + (i + 1) = a + 1 + i by omega, hg i (by omega)]
          simp

/-- `memRead` answers only inside the byte space, and then the bytes its addresses hold. -/
theorem memRead_ok {m : Memory} {a n : Nat} {bs : List Byte} (h : memRead m a n = .ok bs) :
    a + n ≤ memSize ∧ bs.length = n ∧ ∀ i, i < n → m.get? (a + i) = bs[i]? := by
  unfold memRead at h
  split at h
  · exact ⟨‹_›, getBytes_ok h⟩
  · cases h

/-! ### The units -/

/-- A scalar transform in the engine touches the scalar unit and the model's counter, nothing else. -/
theorem runScalar_snd (st : HashState) (b : Block) (s : State) :
    (runScalar st b s).2 = { s with scalar := freeScalar s.draws, draws := s.draws + 1 } := rfl

/-- A transpose in the engine answers the transposed matrix and touches the transposer and the model's counter. -/
theorem runTranspose_eq (m : Matrix) (s : State) :
    runTranspose m s = (transpose m, { s with tm := freeMatrix s.draws, draws := s.draws + 1 }) := rfl

/-- An 8-way transform in the engine touches the 8-way unit, the transposer and the model's counter. -/
theorem runVector_snd (states : Vector HashState 8) (blocks : Vector Block 8) (s : State) :
    (runVector states blocks s).2 =
      { s with vector := freeVector s.draws, tm := freeMatrix (s.draws + 1), draws := s.draws + 2 } := rfl

/-- What `transformAt` can do: it reads 64 bytes and runs the scalar unit on them, or faults as the read does. -/
theorem transformAt_cases {h : HashState} {m : Memory} {a : Nat} {s : State}
    {r : Except Fault (HashState × State)} (hr : transformAt h m a s = r) :
    (∃ bs, memRead m a 64 = .ok bs ∧ r = .ok (runScalar h (blockAt bs 0) s)) ∨
    (∃ f, memRead m a 64 = .error f ∧ r = .error f) := by
  unfold transformAt at hr
  split at hr
  · exact .inr ⟨_, ‹_›, hr.symm⟩
  · exact .inl ⟨_, ‹_›, hr.symm⟩

/-! ### The hasher -/

/-- What `absorb` does when it answers: the byte is written at `BUFLEN`, and either the block is not yet full, or the transform runs
and the buffer is emptied. -/
theorem absorb_cases {x : Byte} {s t : State} (h : absorb x s = .ok t) :
    ∃ mem, memWrite s.ctx.mem s.ctx.bufLen.toNat [x] = .ok mem ∧
      ((s.ctx.bufLen + 1 ≠ 64 ∧ t = { s with ctx :=
          { h := s.ctx.h, mem := mem, bufLen := s.ctx.bufLen + 1, bitLen := s.ctx.bitLen } }) ∨
       (s.ctx.bufLen + 1 = 64 ∧ ∃ hs u, transformAt s.ctx.h mem 0 s = .ok (hs, u) ∧
          t = { u with ctx := { h := hs, mem := [], bufLen := 0, bitLen := s.ctx.bitLen + 512 } })) := by
  unfold absorb at h
  split at h
  · cases h
  · rename_i mem hm
    refine ⟨mem, hm, ?_⟩
    split at h
    · rename_i h64
      split at h
      · cases h
      · rename_i hs u hu
        cases h
        exact .inr ⟨h64, hs, u, hu, rfl⟩
    · rename_i h64
      cases h
      exact .inl ⟨h64, rfl⟩

/-- Absorbing a sequence in two parts. -/
theorem absorbAll_append (xs ys : List Byte) (s : State) :
    absorbAll (xs ++ ys) s =
      match absorbAll xs s with
      | .error f => .error f
      | .ok t => absorbAll ys t := by
  induction xs generalizing s with
  | nil => rfl
  | cons x xs ih =>
    simp only [List.cons_append, absorbAll]
    cases absorb x s with
    | error f => rfl
    | ok t => exact ih t

/-- What `finalTransforms` does when it answers: one transform, or two when the padded length is 128. -/
theorem finalTransforms_cases {h hs : HashState} {m : Memory} {p : Nat} {s t : State}
    (hr : finalTransforms h m p s = .ok (hs, t)) :
    ∃ h1 s1, transformAt h m 0 s = .ok (h1, s1) ∧
      ((p = 128 ∧ transformAt h1 m 64 s1 = .ok (hs, t)) ∨ (p ≠ 128 ∧ hs = h1 ∧ t = s1)) := by
  unfold finalTransforms at hr
  split at hr
  · cases hr
  · rename_i h1 s1 h0
    refine ⟨h1, s1, h0, ?_⟩
    split at hr
    · exact .inl ⟨‹_›, hr⟩
    · cases hr
      exact .inr ⟨‹_›, rfl, rfl⟩

/-! ### Reset and the step -/

/-- Everything a reset leaves that the host can see (R200). -/
theorem applyReset_visible (s : State) :
    (applyReset s).visible = { ctx := Context.initial, input := [], output := [], resetPin := false } := rfl

/-- What a step does, by what stands at the front of the input. -/
theorem step_of_reset {s : State} (h : s.resetPin = true) : step s = .next (applyReset s) := by
  simp [step, h]

theorem step_of_wait {s : State} {k : Nat} (hp : s.resetPin = false) (h : decode s.input = .wait k) :
    step s = .next s := by
  simp [step, hp, h]

theorem step_of_reserved {s : State} {opc : Byte} {len : Nat} {rest : List Byte} (hp : s.resetPin = false)
    (h : decode s.input = .reserved opc len rest) :
    step s = .next (raise .illegalCommand { s with input := rest }) := by
  simp [step, hp, h]

theorem step_of_command {s : State} {i : Instr} {rest : List Byte} (hp : s.resetPin = false)
    (h : decode s.input = .command i rest) : step s = exec i { s with input := rest } := by
  simp [step, hp, h]

end Sys2Proof.Laws
end

