-- ==== Sys2Proof/Laws/PerInstr.lean ====
section
/-! SUPPORT. What holds of every command as syntax, one lemma per constructor. -/

namespace Sys2Proof.Laws.FrameLength

open Sys2Proof

/-- The frame of a command takes `4 + LEN` bytes, its first byte is the opcode, and the payload stands behind the header (R61, R62,
R68). -/
def Statement (i : Instr) : Prop :=
  (encode i).length = 4 + i.payload.length ∧ (encode i).head? = some i.opcode ∧
    (encode i).drop 4 = i.payload

theorem of_parts (opc : Byte) (p : List Byte) :
    (frameBytes opc p).length = 4 + p.length ∧ (frameBytes opc p).head? = some opc ∧
      (frameBytes opc p).drop 4 = p := by
  refine ⟨frameBytes_length opc p, ?_, rfl⟩
  rw [frameBytes, List.head?_append, headerBytes_head]
  rfl

theorem init (p : List Byte) : Statement (.init p) := of_parts 0x01 p
theorem update (p : List Byte) : Statement (.update p) := of_parts 0x02 p
theorem final (p : List Byte) : Statement (.final p) := of_parts 0x03 p
theorem xform (p : List Byte) : Statement (.xform p) := of_parts 0x10 p
theorem xform8 (p : List Byte) : Statement (.xform8 p) := of_parts 0x11 p
theorem trn (p : List Byte) : Statement (.trn p) := of_parts 0x12 p
theorem batch8 (p : List Byte) : Statement (.batch8 p) := of_parts 0x13 p
theorem hex (p : List Byte) : Statement (.hex p) := of_parts 0x20 p

end Sys2Proof.Laws.FrameLength
end

