-- ==== Sys2Proof/Tests/Slice0.lean ====
section
/-! SUPPORT. The model's own tests. Every expected value is from spec/95_test_vectors.md (its section is named), from the tables of
spec/30_encoding.md, or is a word written out bit by bit from the spec's encoding. After them, for each statement with hypotheses, a
concrete state and operands that meet its hypotheses together. -/

namespace Sys2Proof.Tests

open Sys2Proof Sys2Proof.Machine

/-! ### Helpers -/

/-- The `n` bytes of a number, most significant first. -/
def bytesOf (n w : Nat) : List Byte :=
  (List.range n).map fun i => BitVec.ofNat 8 (w / 2 ^ (8 * (n - 1 - i)))

/-- `n` bytes `61` (the letter a). -/
def letters (n : Nat) : List Byte := List.replicate n 0x61

/-- After reset, with these bytes in the buffer and this `BITLEN`. -/
def holding (bytes : List Byte) (bitLen : Dword) : State :=
  { State.reset with ctx :=
    { h := IV, mem := (List.range bytes.length).zip bytes, bufLen := BitVec.ofNat 7 bytes.length,
      bitLen := bitLen } }

/-- A state with these bytes in the command stream. -/
def fed (bytes : List Byte) (s : State) : State := { s with input := bytes }

def outputOf : Host.Outcome State Fault Refusal → Option (List Byte)
  | .next s => some s.output
  | .fault _ => none
  | .refused _ => none

def ctxOf : Host.Outcome State Fault Refusal → Option Context
  | .next s => some s.ctx
  | .fault _ => none
  | .refused _ => none

/-! ### WellFormed: one ill-formed term per check -/

theorem test_init_with_payload_is_ill_formed : (Instr.init [0]).wellFormed = false := by decide
theorem test_final_with_payload_is_ill_formed : (Instr.final [0]).wellFormed = false := by decide
theorem test_xform_one_short_is_ill_formed : (Instr.xform (zeros 95)).wellFormed = false := by decide
theorem test_xform8_seven_lanes_is_ill_formed : (Instr.xform8 (zeros 672)).wellFormed = false := by
  decide +kernel
theorem test_trn_63_words_is_ill_formed : (Instr.trn (zeros 252)).wellFormed = false := by decide +kernel
theorem test_batch8_nine_blocks_is_ill_formed : (Instr.batch8 (zeros 576)).wellFormed = false := by
  decide +kernel
theorem test_hex_64_bytes_is_ill_formed : (Instr.hex (zeros 64)).wellFormed = false := by decide
theorem test_update_past_len_max_is_ill_formed (p : List Byte) (h : p.length = 16777216) :
    (Instr.update p).wellFormed = false := by
  simp [Instr.wellFormed, Instr.encodable, Instr.payload, Config.lenMax, h]
theorem test_update_of_len_max_is_well_formed (p : List Byte) (h : p.length = 16777215) :
    (Instr.update p).wellFormed = true := by
  simp [Instr.wellFormed, Instr.encodable, Instr.payload, Config.lenMax, Instr.format, Format.requiredLen, h]

/-! ### Decode: words written from the encodings of 30_encoding.md R63, R64, R65 -/

theorem test_decode_init : decodeTableWord 32 0b00000001000000000000000000000000 = some (.init []) := by decide
theorem test_decode_update :
    decodeTableWord 32 0b00000010000000000000000000000011 = some (.update [0, 0, 0]) := by decide
theorem test_decode_final : decodeTableWord 32 0b00000011000000000000000000000000 = some (.final []) := by decide
theorem test_decode_xform :
    decodeTableWord 32 0b00010000000000000000000001100000 = some (.xform (zeros 96)) := by decide +kernel
theorem test_decode_xform8 :
    decodeTableWord 32 0b00010001000000000000001100000000 = some (.xform8 (zeros 768)) := by decide +kernel
theorem test_decode_trn :
    decodeTableWord 32 0b00010010000000000000000100000000 = some (.trn (zeros 256)) := by decide +kernel
theorem test_decode_batch8 :
    decodeTableWord 32 0b00010011000000000000001000000000 = some (.batch8 (zeros 512)) := by decide +kernel
theorem test_decode_hex :
    decodeTableWord 32 0b00100000000000000000000000100000 = some (.hex (zeros 32)) := by decide +kernel

/-- Section 11 P2, row 1: the frame `02 00 00 01 61`, then the start of the next frame. -/
theorem test_decode_stream : decode [0x02, 0, 0, 1, 0x61, 0xff, 0, 0, 2] =
    .command (.update [0x61]) [0xff, 0, 0, 2] := by decide

/-- Section 10: reserved opcodes beside the assigned ones. -/
theorem test_decode_reserved :
    decodeTableWord 32 0x00000000 = none ∧ decodeTableWord 32 0x04000000 = none ∧
    decodeTableWord 32 0x0f000000 = none ∧ decodeTableWord 32 0x14000000 = none ∧
    decodeTableWord 32 0x21000000 = none ∧ decodeTableWord 32 0xff000002 = none := by decide

theorem test_encode_update : encode (.update [0x61, 0x62, 0x63]) = [0x02, 0, 0, 3, 0x61, 0x62, 0x63] := by decide

/-! ### Byte order, word functions, lanes: section 3; 10_state.md R24 -/

theorem test_byte_order : be32 0x61 0x62 0x63 0x80 = 0x61626380 ∧ toBe32 0xba7816bf = [0xba, 0x78, 0x16, 0xbf] ∧
    toBe64 0x7a1200 = [0, 0, 0, 0, 0, 0x7a, 0x12, 0] := by decide

theorem test_word_functions : bsig0 0x12345678 = 0x66146474 ∧ bsig1 0x12345678 = 0x3561abda ∧
    ssig0 0x12345678 = 0xe7fce6ee ∧ ssig1 0x12345678 = 0xa1f78649 ∧
    ch 0x510e527f 0x9b05688c 0x1f83d9ab = 0x1f85c98c ∧ maj 0x6a09e667 0xbb67ae85 0x3c6ef372 = 0x3a6fe667 := by
  decide

/-- 10_state.md R27, the entries its text names, and the last of row 0. -/
theorem test_round_constants : K 0 = 0x428a2f98 ∧ K 1 = 0x71374491 ∧ K 7 = 0xab1c5ed5 ∧ K 8 = 0xd807aa98 ∧
    K 63 = 0xc67178f2 := by decide

/-- Lane `l` is bits `[32l+31 : 32l]` (R24). -/
theorem test_vreg_bits : (VReg.bits #v[0x10, 0x11, 0x12, 0x13, 0x14, 0x15, 0x16, 0x17]).extractLsb' (32 * 5) 32 =
    0x15#32 := by decide

/-! ### Each command, one step from the spec's own example -/

theorem test_init : ctxOf (step (fed [0x01, 0, 0, 0] (holding [0x61] 512))) = some Context.initial ∧
    outputOf (step (fed [0x01, 0, 0, 0] (holding [0x61] 512))) = some [0, 0, 0, 0] := by decide +kernel

/-- Section 11 P1, row 2. -/
theorem test_update_abc : ctxOf (step (fed [0x02, 0, 0, 3, 0x61, 0x62, 0x63] State.reset)) =
    some { h := IV, mem := [(0, 0x61), (1, 0x62), (2, 0x63)], bufLen := 3, bitLen := 0 } := by decide +kernel

/-- Section 6, `L = 64`: the 64th byte runs the transform at once. -/
theorem test_update_full_block : ctxOf (step (fed [0x02, 0, 0, 1, 0x61] (holding (letters 63) 0))) =
    some { h := #v[0xdf5bb81c, 0xe81e0626, 0xfb45a894, 0x4fd40f31, 0xb25e6816, 0xd6d499c1, 0xab904929, 0x00635e66],
           mem := [], bufLen := 0, bitLen := 512 } := by decide +kernel

/-- Section 6, `L = 55`: the longest message that pads into one block. -/
theorem test_final_55 : outputOf (step (fed [0x03, 0, 0, 0] (holding (letters 55) 0))) =
    some ([0, 0, 0, 0x20] ++
      bytesOf 32 0x9f4390f8d30c2dd92ec9f095b65e2b9ae9b0a925a5258e241c9f1e910f734318) := by decide +kernel

/-- Section 6, `L = 56`: the padding spills into a second block. -/
theorem test_final_56 : outputOf (step (fed [0x03, 0, 0, 0] (holding (letters 56) 0))) =
    some ([0, 0, 0, 0x20] ++
      bytesOf 32 0xb35439a4ac6f0948b6d6f9e3c6af0f5f590ce20f1bde7090ef7970686ec6738a) := by decide +kernel

/-- Section 4, row 5. -/
theorem test_xform : outputOf (step (fed ([0x10, 0, 0, 0x60] ++
      bytesOf 32 0x0123456789abcdeffedcba98765432100f1e2d3c4b5a69788796a5b4c3d2e1f0 ++
      (List.range 64).map fun k => BitVec.ofNat 8 k) State.reset)) =
    some ([0, 0, 0, 0x20] ++
      bytesOf 32 0x622b8509e985895ad0bd05d8618c27f76989ff8f896e88949102c19d8ff2f61c) := by decide +kernel

/-- Section 9, corner words: `m[0][1]` of the payload is `m[1][0]` of the response. -/
theorem test_trn : outputOf (step (fed ([0x12, 0, 1, 0] ++
      (List.range 64).flatMap fun k => [0, 0, 0, BitVec.ofNat 8 (16 * (k / 8) + k % 8)]) State.reset)) =
    some ([0, 0, 1, 0] ++
      (List.range 64).flatMap fun k => [0, 0, 0, BitVec.ofNat 8 (16 * (k % 8) + k / 8)]) := by decide +kernel

/-- Section 8, step 1: word 0 of lane 7 of the response. -/
theorem test_xform8 : (outputOf (step (fed ([0x11, 0, 3, 0] ++
      (List.replicate 8 (encodeState IV)).flatten ++
      (List.range 8).flatMap fun l => letters (56 + l) ++ [0x80] ++ zeros (7 - l)) State.reset))).map
        (fun o => (o.drop 228).take 4) =
    some [0x52, 0x07, 0x10, 0x7a] := by decide +kernel

/-- Section 7: word 0 of lane 3 of eight blocks of 64 letters; no padding is added. -/
theorem test_batch8 : (outputOf (step (fed ([0x13, 0, 2, 0] ++ letters 512) State.reset))).map
      (fun o => (o.drop 100).take 4) = some [0xdf, 0x5b, 0xb8, 0x1c] := by decide +kernel

/-- Section 10, last row of the HEX table. -/
theorem test_hex : outputOf (step (fed ([0x20, 0, 0, 0x20] ++
      (List.replicate 4 (bytesOf 8 0x0123456789abcdef)).flatten) State.reset)) =
    some ([0, 0, 0, 0x40] ++
      (List.replicate 4 (bytesOf 16 0x30313233343536373839616263646566)).flatten) := by decide +kernel

/-- Section 10: a reserved opcode is taken with its payload, and the next frame stays. -/
theorem test_reserved : step (fed [0xff, 0, 0, 2, 0xde, 0xad, 0x02] (holding [0x61] 0)) =
    .next { holding [0x61] 0 with input := [0x02], output := [0x03, 0, 0, 0] } := by rfl

/-- Section 10: FINAL with a payload byte; the context keeps its message. -/
theorem test_bad_length : step (fed [0x03, 0, 0, 1, 0xaa] (holding [0x61] 0)) =
    .next { holding [0x61] 0 with output := [0x04, 0, 0, 0] } := by rfl

/-- Section 10: XFORM8 with no lanes. -/
theorem test_lane_count : step (fed [0x11, 0, 0, 0] (holding [0x61] 0)) =
    .next { holding [0x61] 0 with output := [0x02, 0, 0, 0] } := by rfl

/-- `withFetchWord` makes the next step run the frame it places (log 9). -/
theorem test_withFetchWord :
    step (State.reset.withFetchWord 32 0x01000000) = exec (.init []) State.reset ∧
    step (State.reset.withFetchWord 32 0x03000000) = exec (.final []) State.reset := ⟨rfl, rfl⟩

/-! ### What the statements rest on: states that meet their hypotheses -/

/-- For `EngineNeverStops`, `ResetState` and every statement about states that meet the invariant. -/
theorem witness_inv_reset : State.reset.Inv := ⟨by decide, by decide, rfl⟩

theorem witness_inv_62 : (holding (letters 62) 512).Inv ∧ (holding (letters 62) 512).ctx.bufLen ≠ 63 :=
  ⟨⟨by decide, by decide, by decide⟩, by decide⟩

theorem witness_inv_63 : (holding (letters 63) 512).Inv ∧ (holding (letters 63) 512).ctx.bufLen = 63 :=
  ⟨⟨by decide, by decide, by decide⟩, by decide⟩

theorem witness_RotateAndShiftBits : (0 < 32 ∧ 31 < 32) ∧ (1 ≤ 1 ∧ 1 ≤ 31 ∧ 31 < 32) ∧ (1 ≤ 31 ∧ 31 ≤ 31 ∧ 0 < 32) ∧
    rotr 1 0x12345678 = 0x091a2b3c ∧ rotr 31 0x12345678 = 0x2468acf0 ∧ shr 3 0x12345678 = 0x02468acf := by decide

theorem witness_ChoiceAndMajority : 0 < 32 ∧ 31 < 32 ∧ ch 0 0x12345678 0x9abcdef0 = 0x9abcdef0 := by decide

theorem witness_MixingFunctionBits : 0 < 32 ∧ 31 < 32 ∧ bsig0 1 = 0x40080400 ∧ ssig1 0x80000000 = 0x00205000 := by decide

/-- Section 2: `W[0]`, `W[16]` and `W[63]` of the block of "abc". -/
theorem witness_ScheduleWords :
    (0 < 16 ∧ 15 < 16) ∧ (16 < 64 ∧ 16 ≤ 16) ∧ (63 < 64 ∧ 16 ≤ 63) ∧
    (fun u : ScalarUnit => (u.w[0], u.w[16], u.w[63]))
      ((ScalarUnit.zero.loadBlock (blockAt (padMessage [0x61, 0x62, 0x63]) 0)).expand 48) =
        (0x61626380, 0x61626380, 0x12b1edeb) := by decide +kernel

theorem witness_TransformOrder : 0 < 64 ∧ 63 < 64 ∧ ∃ x : ScalarUnit,
    x = ((ScalarUnit.zero.loadBlock (blockAt [] 0)).expand 48).loadState IV := ⟨by decide, by decide, _, rfl⟩

theorem witness_FoldRecursion : letters 128 ≠ [] ∧ (letters 128).length % 64 = 0 := by decide +kernel

/-- For `TransposeInvolution`, `PackAndUnpack`, `VectorOperationsAreLanewise`, `EightWayEqualsScalar`: the first and last lane, word and
schedule word. -/
theorem witness_lane_indices : 0 < 8 ∧ 7 < 8 ∧ 0 < 16 ∧ 15 < 16 ∧
    (transpose #v[IV, IV, IV, IV, IV, IV, IV, IV])[7][0] = IV[7] := by decide

/-- One address range per clause, at the edge of the byte space, and a byte that nothing has written. -/
theorem witness_ByteSpaceReadsAndWrites :
    (127 + [0xaa#8].length ≤ 128) ∧ (128 < 128 + [0xaa#8].length) ∧ (128 < 127 + 2) ∧
    (0 + 2 ≤ 128 ∧ 1 < 2 ∧ Memory.get? [(0, 0xaa)] (0 + 1) = none ∧
      ∀ j : Nat, j < 1 → Memory.get? [(0, 0xaa)] (0 + j) ≠ none) := by decide

/-- One block filled, and no block filled with the buffer one byte short of full. -/
theorem witness_UpdateBlockwise : (holding (letters 63) 512).Inv ∧
    letters 64 = (holding (letters 63) 512).ctx.buffered ++ [0x61] ∧ 1 = (letters 64).length / 64 ∧
    letters 63 = (holding (letters 63) 512).ctx.buffered ++ [] ∧ 0 = (letters 63).length / 64 :=
  ⟨witness_inv_63.1, by decide⟩

theorem witness_ChunkingInvariance : (holding (letters 63) 512).Inv ∧ [0x61#8].length + [0x62#8].length ≤ Config.lenMax ∧
    (∀ i ∈ [Instr.hex (zeros 32), Instr.xform [], Instr.final [0]], isPure i = true ∨ i.wellFormed = false) ∧
    (∀ i ∈ [Instr.hex (zeros 32), Instr.xform [], Instr.final [0]], i.encodable = true) :=
  ⟨witness_inv_63.1, by decide, by decide, by decide⟩

theorem witness_BitCounterWraps : (holding (letters 63) (BitVec.ofNat 64 (2 ^ 64 - 512))).Inv ∧
    (holding (letters 63) (BitVec.ofNat 64 (2 ^ 64 - 512))).ctx.bufLen = 63 ∧
    (holding (letters 63) (BitVec.ofNat 64 (2 ^ 64 - 512))).ctx.bitLen.toNat = 2 ^ 64 - 512 :=
  ⟨⟨by decide, by decide, by decide⟩, by decide, by decide⟩

/-- Both branches of the padding, at the two lengths where it changes. -/
theorem witness_PaddedBuffer : (holding (letters 55) 0).ctx.Inv ∧ (holding (letters 56) 0).ctx.Inv ∧
    (holding (letters 55) 0).ctx.padded = letters 55 ++ bytesOf 9 0x8000000000000001b8 ∧
    (holding (letters 56) 0).ctx.padded = letters 56 ++ [0x80] ++ zeros 63 ++ bytesOf 8 0x1c0 :=
  ⟨⟨by decide, by decide, by decide⟩, ⟨by decide, by decide, by decide⟩, by decide +kernel⟩

theorem witness_InitAndFinalCommand : [0xaa#8] ≠ [] ∧ (holding (letters 56) 0).Inv :=
  ⟨by decide, witness_PaddedBuffer.2.1⟩

theorem witness_MessageDigest : ∃ (s : State) (chunks : List (List Byte)) (rest : List Byte),
    s.ctx = Context.initial ∧ s.resetPin = false ∧ (∀ c ∈ chunks, c.length ≤ Config.lenMax) ∧
    chunks.flatten.length < 2 ^ 61 ∧
    s.input = (chunks.map fun c => encode (.update c)).flatten ++ encode (.final []) ++ rest ∧
    chunks = [[0x61], [], [0x62, 0x63]] :=
  ⟨fed (([[0x61], [], [0x62, 0x63]].map fun c => encode (.update c)).flatten ++
      encode (.final []) ++ [0x01]) State.reset,
    [[0x61], [], [0x62, 0x63]], [0x01], rfl, rfl, by decide, by decide, rfl, rfl⟩

theorem witness_PhaseMoves : State.reset.Inv ∧ State.reset.ctx.phase = .empty ∧
    [0x61#8].length ≤ Config.lenMax ∧ (holding (letters 63) 512).Inv ∧
    (holding (letters 63) 512).ctx.phase = .buffering 63 ∧ isPure (.hex []) = true :=
  ⟨witness_inv_reset, by decide +kernel, by decide, witness_inv_63.1, by decide +kernel, rfl⟩

/-- For the statements about XFORM, TRN, XFORM8, BATCH8 and HEX: a payload of the right length and one of a wrong length. -/
theorem witness_payload_lengths : (zeros 96).length = 96 ∧ (zeros 97).length ≠ 96 ∧ (zeros 256).length = 256 ∧
    (zeros 252).length ≠ 256 ∧ (zeros 768).length = 768 ∧ (zeros 0).length ≠ 768 ∧ (zeros 512).length = 512 ∧
    (zeros 513).length ≠ 512 ∧ (zeros 32).length = 32 ∧ (zeros 64).length ≠ 32 := by decide +kernel

/-- A message of 55 bytes, padded, in lane 7. -/
theorem witness_Batch8OfPaddedMessage :
    (zeros 448 ++ padMessage (letters 55)).length = 512 ∧ 7 < 8 ∧ (letters 55).length ≤ 55 ∧
    ((zeros 448 ++ padMessage (letters 55)).drop (64 * 7)).take 64 = padMessage (letters 55) := by decide +kernel

theorem witness_HexCommand : (9#4).toNat ≤ 9 ∧ 10 ≤ (10#4).toNat ∧ 31 < 32 ∧
    hexChar 9 = 0x39 ∧ hexChar 10 = 0x61 ∧ hexChar 15 = 0x66 := by decide

theorem witness_EncodeAndDecodeState : (7 < 8 ∧ 3 < 4) ∧ (zeros 32).length = 32 ∧
    encodeState IV = bytesOf 32 0x6a09e667bb67ae853c6ef372a54ff53a510e527f9b05688c1f83d9ab5be0cd19 := by
  decide +kernel

theorem witness_PureCommandsIgnoreTheState : isPure (.xform []) = true ∧ isPure (.xform8 []) = true ∧
    isPure (.trn []) = true ∧ isPure (.batch8 []) = true ∧ isPure (.hex []) = true := by decide

/-- A payload of every length up to `LEN_MAX`. -/
theorem witness_DecodeEncode (n : Nat) (h : n ≤ Config.lenMax) :
    (Instr.update (List.replicate n 0)).encodable = true := by
  simp [Instr.encodable, Instr.payload, h]

theorem witness_StepRunsTheDecodedCommand :
    decode (fed [0x01, 0, 0, 0, 0x02] State.reset).input = .command (.init []) [0x02] ∧
    decode (fed [0xff, 0, 0, 1, 0xaa] State.reset).input = .reserved 0xff 1 [] ∧
    decode (fed [0x02, 0, 0, 3, 0x61] State.reset).input = .wait 2 ∧
    (fed [0x01, 0, 0, 0, 0x02] State.reset).resetPin = false := by decide

/-- The longest proper part of a frame, and a part of a header. -/
theorem witness_IncompleteFrameWaits :
    6 < 4 + [0x61#8, 0x62, 0x63].length ∧ 3 < 4 + [0x61#8, 0x62, 0x63].length ∧
    [0x61#8, 0x62, 0x63].length ≤ Config.lenMax ∧
    (fed [0x02, 0, 0, 3, 0x61, 0x62] State.reset).input = (frameBytes 0x02 [0x61, 0x62, 0x63]).take 6 ∧
    (fed [0x02, 0, 0] State.reset).input = (frameBytes 0x02 [0x61, 0x62, 0x63]).take 3 ∧
    (fed [0x02, 0, 0] State.reset).resetPin = false := by decide

/-- One frame for each clause: a reserved opcode, a wrong length, a right one. -/
theorem witness_HeaderChecks : (fed (frameBytes 0x21 [] ++ [0x01]) State.reset).Inv ∧
    (0x21#8 ∉ assignedOpcodes ∧ (fed (frameBytes 0x21 [] ++ [0x01]) State.reset).input = frameBytes 0x21 [] ++ [0x01]) ∧
    (fixedLen 0x11 = some 768 ∧ ([] : List Byte).length ≠ 768) ∧ (fixedLen 0x10 = some 96 ∧ (zeros 95).length ≠ 96) ∧
    (0x03#8 ∈ assignedOpcodes ∧ fixedLen 0x03 = some 0 ∧ ([] : List Byte).length = 0) ∧
    (0x02#8 ∈ assignedOpcodes ∧ fixedLen 0x02 = none) ∧
    (fed (frameBytes 0x21 [] ++ [0x01]) State.reset).resetPin = false :=
  ⟨witness_inv_reset, by decide, by decide, by decide, by decide, by decide, rfl⟩

/-- For `OneResponsePerFrame` and `StepMatchesTypedView`: a frame behind which another begins, and a full buffer's last byte. -/
theorem witness_OneResponsePerFrame : (fed (frameBytes 0x02 [0x61] ++ [0x03]) (holding (letters 63) 512)).Inv ∧
    (fed (frameBytes 0x02 [0x61] ++ [0x03]) (holding (letters 63) 512)).resetPin = false ∧
    [0x61#8].length ≤ Config.lenMax ∧
    (fed (frameBytes 0x02 [0x61] ++ [0x03]) (holding (letters 63) 512)).input = frameBytes 0x02 [0x61] ++ [0x03] :=
  ⟨witness_inv_63.1, rfl, by decide, rfl⟩

theorem witness_StepKeepsInvariant : ∃ s t : State, s.Inv ∧ step s = .next t ∧ t ≠ s :=
  ⟨fed [0x01, 0, 0, 0] (holding (letters 63) 512), _, witness_inv_63.1, rfl, fun h => by
    have := congrArg State.input h
    revert this
    decide⟩

theorem witness_WorkingStateIsNeverRead : ∃ s s' : State, s.visible = s'.visible ∧ s ≠ s' :=
  ⟨State.reset, { State.reset with draws := 1 }, rfl, fun h => by
    have := congrArg State.draws h
    revert this
    decide⟩

/-- A state with a complete frame, and a response the host has not taken. -/
def ahead : State := { fed [0x01, 0, 0, 0] State.reset with output := [0, 0, 0, 0] }

theorem ahead_decodes : decode ahead.input = .command (.init []) [] := by decide

theorem witness_SendingAhead : ∃ s t : State, s.resetPin = false ∧ (∀ k : Nat, decode s.input ≠ .wait k) ∧
    step s = .next t ∧ 4 ≤ s.output.length := by
  refine ⟨ahead, _, rfl, fun k h => ?_, rfl, by decide⟩
  rw [ahead_decodes] at h
  cases h

end Sys2Proof.Tests
end

section
/-! PROOFS, family 10_state: a scalar or an 8-way transform leaves nothing of what the unit's registers held before (R31, R86), so each
use of a unit in the engine is its pure function and a drop of its registers. -/

namespace Sys2Proof.Proofs

open Sys2Proof Sys2Proof.Machine Sys2Proof.Laws

/-! ### Schedules that agree up to a word -/

/-- Two schedules hold the same words below index `k`. -/
def AgreeBelow {α : Type} (k : Nat) (x y : Vector α 64) : Prop :=
  ∀ i, i < k → x[i]? = y[i]?

theorem AgreeBelow.getD_eq {α : Type} {k : Nat} {x y : Vector α 64} (h : AgreeBelow k x y) {i : Nat}
    (hi : i < k) (d : α) : x.getD i d = y.getD i d := by
  simp [Vector.getD, Array.getD_eq_getD_getElem?, h i hi]

/-- Writing equal words at index `k` extends the agreement by that word. -/
theorem AgreeBelow.set {α : Type} {k : Nat} {x y : Vector α 64} (h : AgreeBelow k x y) (a : α) :
    AgreeBelow (k + 1) (x.setIfInBounds k a) (y.setIfInBounds k a) := by
  intro i hi
  rw [Vector.getElem?_setIfInBounds, Vector.getElem?_setIfInBounds]
  by_cases hk : k = i
  · simp [hk]
  · simpa [hk] using h i (by omega)

theorem AgreeBelow.eq {α : Type} {x y : Vector α 64} (h : AgreeBelow 64 x y) : x = y :=
  Vector.ext fun i hi => by simpa [hi] using h i hi

/-! ### The scalar unit -/

/-- The first sixteen schedule words are the block's. -/
theorem loadBlock_w (u : ScalarUnit) (b : Block) {i : Nat} (hi : i < 16) :
    (u.loadBlock b).w[i]? = (blockWords b)[i]? := by
  have h64 : i < 64 := by omega
  simp [ScalarUnit.loadBlock, hi, h64]

theorem loadBlock_agree (u v : ScalarUnit) (b : Block) : AgreeBelow 16 (u.loadBlock b).w (v.loadBlock b).w :=
  fun _ hi => (loadBlock_w u b hi).trans (loadBlock_w v b hi).symm

theorem scalar_schedStep_agree {n : Nat} {u v : ScalarUnit} (h : AgreeBelow (16 + n) u.w v.w) :
    AgreeBelow (16 + n + 1) (u.schedStep (16 + n)).w (v.schedStep (16 + n)).w := by
  have hs : ∀ i, i < 16 + n → u.sched i = v.sched i := fun i hi => h.getD_eq hi 0
  simp only [ScalarUnit.schedStep, hs (16 + n - 2) (by omega), hs (16 + n - 7) (by omega),
    hs (16 + n - 15) (by omega), hs (16 + n - 16) (by omega)]
  exact h.set _

/-- The schedule steps read only words that the block or an earlier step wrote. -/
theorem scalar_expand_agree (n : Nat) {u v : ScalarUnit} (h : AgreeBelow 16 u.w v.w) :
    AgreeBelow (16 + n) (ScalarUnit.expand n u).w (ScalarUnit.expand n v).w := by
  induction n with
  | zero => exact h
  | succ n ih => exact scalar_schedStep_agree ih

/-- The whole schedule is that of the block. -/
theorem expand_loadBlock_w (u v : ScalarUnit) (b : Block) :
    ((u.loadBlock b).expand 48).w = ((v.loadBlock b).expand 48).w :=
  AgreeBelow.eq (scalar_expand_agree 48 (loadBlock_agree u v b))

/-- The first of the rounds can be taken first. -/
theorem scalar_rounds_succ (n : Nat) (u : ScalarUnit) :
    ScalarUnit.rounds (n + 1) u = ScalarUnit.rounds n u.round := by
  induction n with
  | zero => rfl
  | succ n ih => exact congrArg ScalarUnit.round ih

/-- The first round, from a loaded state, reads the schedule and no other register the unit held. -/
theorem round_loadState {u v : ScalarUnit} (h : u.w = v.w) (st : HashState) :
    (u.loadState st).round = (v.loadState st).round := by
  simp only [ScalarUnit.round, ScalarUnit.loadState, h]

/-- A transform overwrites every register of the unit, from its operands alone. -/
theorem scalar_run_eq (u v : ScalarUnit) (st : HashState) (b : Block) : u.run st b = v.run st b := by
  rw [ScalarUnit.run, ScalarUnit.run, scalar_rounds_succ 63, scalar_rounds_succ 63,
    round_loadState (expand_loadBlock_w u v b)]

theorem scalar_run_result (u : ScalarUnit) (st : HashState) (b : Block) : (u.run st b).result st = transform st b := by
  rw [transform, scalar_run_eq u ScalarUnit.zero]

/-- Settles O9: a transform overwrites every register of the unit, so the unit of zeros of the pure function ends with the same
registers. -/
theorem transformReadsOnlyItsOperands : Obligations.TransformReadsOnlyItsOperands := by
  unfold Obligations.TransformReadsOnlyItsOperands
  exact scalar_run_result

/-! ### The 8-way unit -/

/-- The first sixteen vector schedule words are the packed blocks'. -/
theorem loadBlocks_vw (v : VectorUnit) (bs : Vector Block 8) {i : Nat} (hi : i < 16) :
    (v.loadBlocks bs).vw[i]? = (packBlocks bs)[i]? := by
  have h64 : i < 64 := by omega
  simp [VectorUnit.loadBlocks, hi, h64]

theorem loadBlocks_agree (u v : VectorUnit) (bs : Vector Block 8) :
    AgreeBelow 16 (u.loadBlocks bs).vw (v.loadBlocks bs).vw :=
  fun _ hi => (loadBlocks_vw u bs hi).trans (loadBlocks_vw v bs hi).symm

theorem vector_schedStep_agree {n : Nat} {u v : VectorUnit} (h : AgreeBelow (16 + n) u.vw v.vw) :
    AgreeBelow (16 + n + 1) (u.schedStep (16 + n)).vw (v.schedStep (16 + n)).vw := by
  have hs : ∀ i, i < 16 + n → u.sched i = v.sched i := fun i hi => h.getD_eq hi zeroVReg
  simp only [VectorUnit.schedStep, hs (16 + n - 2) (by omega), hs (16 + n - 7) (by omega),
    hs (16 + n - 15) (by omega), hs (16 + n - 16) (by omega)]
  exact h.set _

theorem vector_expand_agree (n : Nat) {u v : VectorUnit} (h : AgreeBelow 16 u.vw v.vw) :
    AgreeBelow (16 + n) (VectorUnit.expand n u).vw (VectorUnit.expand n v).vw := by
  induction n with
  | zero => exact h
  | succ n ih => exact vector_schedStep_agree ih

/-- The vector schedule steps write the schedule and nothing else. -/
theorem vector_expand_eq (n : Nat) (v : VectorUnit) :
    VectorUnit.expand n v = { v with vw := (VectorUnit.expand n v).vw } := by
  induction n with
  | zero => rfl
  | succ n ih =>
    rw [VectorUnit.expand, VectorUnit.schedStep, ih]

/-- The whole vector schedule is that of the blocks. -/
theorem vector_expand_load_vw (u v : VectorUnit) (sts : Vector HashState 8) (bs : Vector Block 8) :
    (((u.loadBlocks bs).loadStates sts).expand 48).vw = (((v.loadBlocks bs).loadStates sts).expand 48).vw :=
  AgreeBelow.eq (vector_expand_agree 48 (loadBlocks_agree u v bs))

theorem vector_rounds_succ (n : Nat) (v : VectorUnit) :
    VectorUnit.rounds (n + 1) v = VectorUnit.rounds n v.round := by
  induction n with
  | zero => rfl
  | succ n ih => exact congrArg VectorUnit.round ih

/-- The first round on vectors, from loaded states and an expanded schedule, reads no other register the unit held. -/
theorem vector_round_load (u v : VectorUnit) (sts : Vector HashState 8) (bs : Vector Block 8) :
    (((u.loadBlocks bs).loadStates sts).expand 48).round =
      (((v.loadBlocks bs).loadStates sts).expand 48).round := by
  rw [vector_expand_eq, vector_expand_eq 48 ((v.loadBlocks bs).loadStates sts),
    vector_expand_load_vw u v]
  rfl

/-- An 8-way transform overwrites every register of the unit, from its operands alone. -/
theorem vector_run_eq (u v : VectorUnit) (sts : Vector HashState 8) (bs : Vector Block 8) :
    u.run sts bs = v.run sts bs := by
  rw [VectorUnit.run, VectorUnit.run, vector_rounds_succ 63, vector_rounds_succ 63, vector_round_load u v]

theorem unpackStates_run (v : VectorUnit) (sts : Vector HashState 8) (bs : Vector Block 8) :
    unpackStates (v.run sts bs).vs = transform8 sts bs := by
  rw [transform8, vector_run_eq v VectorUnit.zero]

/-! ### The units in the engine -/

/-- A scalar transform in the engine answers the pure function and drops the scalar unit's registers. -/
theorem runScalar_eq (st : HashState) (b : Block) (s : State) :
    runScalar st b s = (transform st b, dropScalar s) :=
  Prod.ext (scalar_run_result s.scalar st b) (runScalar_snd st b s)

/-- An 8-way transform in the engine answers the pure function and drops the registers of the two units it used. -/
theorem runVector_eq (sts : Vector HashState 8) (bs : Vector Block 8) (s : State) :
    runVector sts bs s = (transform8 sts bs, dropMatrix (dropVector s)) :=
  Prod.ext (unpackStates_run s.vector sts bs) (runVector_snd sts bs s)

end Sys2Proof.Proofs
end

section
/-! PROOFS, family 10_state: what the working registers hold never reaches a response, the context or a stop (R31, R33). -/

namespace Sys2Proof.Proofs

open Sys2Proof Sys2Proof.Machine Sys2Proof.Laws

/-! ### The visible part of each update -/

@[simp] theorem emit_visible (c : Byte) (bs : List Byte) (s : State) :
    (emit c bs s).visible = { s.visible with output := s.visible.output ++ responseBytes c bs } := rfl

@[simp] theorem respondOk_visible (bs : List Byte) (s : State) :
    (respondOk bs s).visible = { s.visible with output := s.visible.output ++ responseBytes okCode bs } := rfl

@[simp] theorem raise_visible (e : Error) (s : State) :
    (raise e s).visible = { s.visible with output := s.visible.output ++ responseBytes e.code [] } := rfl

@[simp] theorem withCtx_visible (c : Context) (s : State) :
    State.visible { s with ctx := c } = { s.visible with ctx := c } := rfl

@[simp] theorem withInput_visible (bs : List Byte) (s : State) :
    State.visible { s with input := bs } = { s.visible with input := bs } := rfl

@[simp] theorem dropScalar_visible (s : State) : (dropScalar s).visible = s.visible := rfl
@[simp] theorem dropVector_visible (s : State) : (dropVector s).visible = s.visible := rfl
@[simp] theorem runTranspose_visible (m : Matrix) (s : State) : (runTranspose m s).2.visible = s.visible := rfl
@[simp] theorem dropMatrix_visible (s : State) : (dropMatrix s).visible = s.visible := rfl

/-- What one finds in either of two states with the same visible part. -/
theorem fields_of_visible {s s' : State} (h : s.visible = s'.visible) :
    s.ctx = s'.ctx ∧ s.input = s'.input ∧ s.resetPin = s'.resetPin :=
  ⟨congrArg Visible.ctx h, congrArg Visible.input h, congrArg Visible.resetPin h⟩

/-! ### What may fault -/

/-- Two computations with the same answer up to `f` stop with the same fault, or both answer and `f` sees the same. -/
theorem cases_of_map_eq {α β : Type} {f : α → β} {r r' : Except Fault α} (h : r.map f = r'.map f) :
    (∃ e, r = .error e ∧ r' = .error e) ∨ ∃ x x', r = .ok x ∧ r' = .ok x' ∧ f x = f x' := by
  cases r with
  | error e =>
    cases r' with
    | error e' => exact .inl ⟨e, rfl, by rw [Except.error.inj h]⟩
    | ok x' => cases h
  | ok x =>
    cases r' with
    | error e' => cases h
    | ok x' => exact .inr ⟨x, x', rfl, rfl, Except.ok.inj h⟩

/-- A result and the visible part of the state left with it. -/
def answerAndVisible (r : HashState × State) : HashState × Visible := (r.1, r.2.visible)

/-- A transform of bytes in the byte space answers the same hash and leaves the same visible part. -/
theorem transformAt_visible {s s' : State} (h : s.visible = s'.visible) (hs : HashState) (m : Memory) (a : Nat) :
    (transformAt hs m a s).map answerAndVisible =
      (transformAt hs m a s').map answerAndVisible := by
  unfold transformAt
  cases memRead m a 64 with
  | error f => rfl
  | ok bs => simp [runScalar_eq, Except.map, answerAndVisible, h]

theorem finalTransforms_visible {s s' : State} (h : s.visible = s'.visible) (hs : HashState) (m : Memory) (p : Nat) :
    (finalTransforms hs m p s).map answerAndVisible =
      (finalTransforms hs m p s').map answerAndVisible := by
  unfold finalTransforms
  obtain ⟨f, hr, hr'⟩ | ⟨⟨h1, t⟩, ⟨h1', t'⟩, hr, hr', ht⟩ := cases_of_map_eq (transformAt_visible h hs m 0)
  · rw [hr, hr']
  · obtain ⟨rfl, ht⟩ := Prod.mk.inj ht
    rw [hr, hr']
    by_cases hp : p = 128
    · simpa [hp] using transformAt_visible ht h1 m 64
    · simpa [hp, Except.map, answerAndVisible] using ht

theorem absorb_visible {s s' : State} (h : s.visible = s'.visible) (x : Byte) :
    (absorb x s).map State.visible = (absorb x s').map State.visible := by
  obtain ⟨hc, -, -⟩ := fields_of_visible h
  unfold absorb
  rw [← hc]
  cases memWrite s.ctx.mem s.ctx.bufLen.toNat [x] with
  | error f => rfl
  | ok mem =>
    by_cases h64 : s.ctx.bufLen + 1 = 64
    · simp only [if_pos h64]
      obtain ⟨f, hr, hr'⟩ | ⟨⟨hs, t⟩, ⟨hs', t'⟩, hr, hr', ht⟩ :=
        cases_of_map_eq (transformAt_visible h s.ctx.h mem 0)
      · simp [hr, hr']
      · obtain ⟨rfl, ht⟩ := Prod.mk.inj ht
        simp [hr, hr', Except.map, ht]
    · simp only [if_neg h64]
      simp [Except.map, h]

theorem absorbAll_visible {s s' : State} (h : s.visible = s'.visible) (xs : List Byte) :
    (absorbAll xs s).map State.visible = (absorbAll xs s').map State.visible := by
  induction xs generalizing s s' with
  | nil => exact congrArg Except.ok h
  | cons x xs ih =>
    unfold absorbAll
    obtain ⟨f, hr, hr'⟩ | ⟨t, t', hr, hr', ht⟩ := cases_of_map_eq (absorb_visible h x)
    · rw [hr, hr']
    · rw [hr, hr']
      exact ih ht

/-! ### The commands -/

/-- A command that checks its payload's length runs alike when what it does with the right length does (R181). -/
theorem sameVisible_checked {s s' : State} (h : s.visible = s'.visible) (c : Prop) [Decidable c] (e : Error)
    {o o' : Host.Outcome State Fault Refusal} (ho : sameVisible o o') :
    sameVisible (if c then .next (raise e s) else o) (if c then .next (raise e s') else o') := by
  split
  · simp [sameVisible, h]
  · exact ho

theorem execUpdate_visible {s s' : State} (h : s.visible = s'.visible) (p : List Byte) :
    sameVisible (execUpdate p s) (execUpdate p s') := by
  unfold execUpdate
  obtain ⟨f, hr, hr'⟩ | ⟨t, t', hr, hr', ht⟩ := cases_of_map_eq (absorbAll_visible h p)
  · simp [hr, hr', sameVisible]
  · simp [hr, hr', sameVisible, ht]

theorem execFinal_visible {s s' : State} (h : s.visible = s'.visible) (p : List Byte) :
    sameVisible (execFinal p s) (execFinal p s') := by
  obtain ⟨hc, -, -⟩ := fields_of_visible h
  refine sameVisible_checked h _ _ ?_
  rw [← hc]
  cases padBuffer s.ctx with
  | error f => rfl
  | ok mem =>
    obtain ⟨f, hr, hr'⟩ | ⟨⟨d, t⟩, ⟨d', t'⟩, hr, hr', ht⟩ :=
      cases_of_map_eq (finalTransforms_visible h s.ctx.h mem (paddedLen s.ctx.bufLen.toNat))
    · simp [hr, hr', sameVisible]
    · obtain ⟨rfl, ht⟩ := Prod.mk.inj ht
      simp [hr, hr', sameVisible, ht]

/-- Every command runs alike in two states with the same visible part. -/
theorem exec_visible {s s' : State} (h : s.visible = s'.visible) (i : Instr) :
    sameVisible (exec i s) (exec i s') := by
  cases i with
  | init p => exact sameVisible_checked h _ _ (by simp [sameVisible, h])
  | update p => exact execUpdate_visible h p
  | final p => exact execFinal_visible h p
  | xform p => exact sameVisible_checked h _ _ (by simp [sameVisible, runScalar_eq, h])
  | xform8 p => exact sameVisible_checked h _ _ (by simp [sameVisible, runVector_eq, h])
  | trn p => exact sameVisible_checked h _ _ (by simp [sameVisible, runTranspose_result, h])
  | batch8 p => exact sameVisible_checked h _ _ (by simp [sameVisible, runVector_eq, h])
  | hex p => exact sameVisible_checked h _ _ (by simp [sameVisible, h])

/-- Settles O47: the step is chosen by the reset input and the command stream, both visible, and each of its four outcomes is alike. -/
theorem workingStateIsNeverRead : Obligations.WorkingStateIsNeverRead := by
  unfold Obligations.WorkingStateIsNeverRead
  intro s s' h
  obtain ⟨-, hi, hp⟩ := fields_of_visible h
  cases hr : s.resetPin with
  | true =>
    rw [step_of_reset hr, step_of_reset (hp ▸ hr)]
    exact (applyReset_visible s).trans (applyReset_visible s').symm
  | false =>
    have hr' : s'.resetPin = false := hp ▸ hr
    cases hd : decode s.input with
    | wait k =>
      rw [step_of_wait hr hd, step_of_wait hr' (hi ▸ hd)]
      exact h
    | reserved opc len rest =>
      rw [step_of_reserved hr hd, step_of_reserved hr' (hi ▸ hd)]
      simp [sameVisible, h]
    | command i rest =>
      rw [step_of_command hr hd, step_of_command hr' (hi ▸ hd)]
      exact exec_visible (by simp [h]) i

end Sys2Proof.Proofs
end

section
/-! PROOFS, family 10_state: every step keeps the context invariant (R30), and the state after reset has it (R32). -/

namespace Sys2Proof.Proofs

open Sys2Proof Sys2Proof.Machine Sys2Proof.Laws

/-! ### The hasher keeps the invariant -/

theorem initial_inv : Context.initial.Inv := ⟨by decide, by decide, rfl⟩

/-- A block more leaves the bit count a multiple of 512, also where the count wraps (R150). -/
theorem bitLen_add_block {d : Dword} (h : d.toNat % 512 = 0) : (d + 512).toNat % 512 = 0 := by
  bv_omega

/-- The context behind one more buffered byte, when it fills no block. -/
theorem push_inv {c : Context} (h : c.Inv) (x : Byte) (hn : c.bufLen + 1 ≠ 64) {mem : Memory}
    (hm : memWrite c.mem c.bufLen.toNat [x] = .ok mem) :
    Context.Inv { h := c.h, mem := mem, bufLen := c.bufLen + 1, bitLen := c.bitLen } := by
  have hl := inv_buffered_length h
  have ⟨hb, hd, _⟩ := h
  have hlt : c.bufLen.toNat + 1 < 64 := by bv_omega
  have hs : (c.bufLen + 1).toNat = c.bufLen.toNat + 1 := by bv_omega
  rw [inv_mem h, ← hl, memWrite_end c.buffered [x] (by simp [memSize]; omega)] at hm
  cases hm
  exact inv_of_cells (by rw [hs, List.length_append, hl]; rfl) (by omega) hd

theorem absorb_keeps_inv {x : Byte} {s t : State} (hi : s.Inv) (h : absorb x s = .ok t) : t.Inv := by
  obtain ⟨mem, hm, ⟨hn, rfl⟩ | ⟨-, hs, u, -, rfl⟩⟩ := absorb_cases h
  · exact push_inv hi x hn hm
  · exact ⟨Nat.zero_lt_succ 63, bitLen_add_block hi.2.1, rfl⟩

theorem absorbAll_keeps_inv {xs : List Byte} {s t : State} (hi : s.Inv) (h : absorbAll xs s = .ok t) :
    t.Inv := by
  induction xs generalizing s with
  | nil => cases h; exact hi
  | cons x xs ih =>
    unfold absorbAll at h
    split at h
    · cases h
    · exact ih (absorb_keeps_inv hi ‹_›) h

/-! ### What a command leaves in the context -/

/-- INIT answers an error and keeps the context, or leaves it initial (R141). -/
theorem execInit_ctx {p : List Byte} {s t : State} (h : execInit p s = .next t) :
    t.ctx = s.ctx ∨ t.ctx = Context.initial := by
  unfold execInit at h
  split at h <;> cases h
  · exact .inl rfl
  · exact .inr rfl

/-- FINAL answers an error and keeps the context, or leaves it initial (R160). -/
theorem execFinal_ctx {p : List Byte} {s t : State} (h : execFinal p s = .next t) :
    t.ctx = s.ctx ∨ t.ctx = Context.initial := by
  unfold execFinal at h
  split at h
  · cases h
    exact .inl rfl
  · split at h
    · cases h
    · split at h <;> cases h
      exact .inr rfl

/-- UPDATE that answers has absorbed its payload (R145). -/
theorem execUpdate_cases {p : List Byte} {s t : State} (h : execUpdate p s = .next t) :
    ∃ u, absorbAll p s = .ok u ∧ t = respondOk [] u := by
  unfold execUpdate at h
  split at h <;> cases h
  exact ⟨_, ‹_›, rfl⟩

/-- A command whose run keeps the context keeps it with a wrong payload length too. -/
theorem checked_ctx {c : Prop} [Decidable c] {e : Error} {s t u : State}
    (h : (if c then .next (raise e s) else .next u : Host.Outcome State Fault Refusal) = .next t)
    (hu : u.ctx = s.ctx) :
    t.ctx = s.ctx := by
  split at h <;> cases h
  · rfl
  · exact hu

/-- A pure command keeps the context (R49). -/
theorem exec_pure_ctx {i : Instr} {s t : State} (hp : isPure i = true) (h : exec i s = .next t) :
    t.ctx = s.ctx := by
  cases i with
  | init p => cases hp
  | update p => cases hp
  | final p => cases hp
  | xform p => exact checked_ctx h (by simp)
  | xform8 p => exact checked_ctx h (by simp)
  | trn p => exact checked_ctx h (by simp)
  | batch8 p => exact checked_ctx h (by simp)
  | hex p => exact checked_ctx h (by simp)

theorem ctx_inv_of_eq {s t : State} (hi : s.Inv) (h : t.ctx = s.ctx ∨ t.ctx = Context.initial) : t.Inv := by
  unfold State.Inv
  rcases h with h | h <;> rw [h]
  · exact hi
  · exact initial_inv

theorem exec_keeps_inv {i : Instr} {s t : State} (hi : s.Inv) (h : exec i s = .next t) : t.Inv := by
  cases i with
  | init p => exact ctx_inv_of_eq hi (execInit_ctx h)
  | update p =>
    obtain ⟨u, hu, rfl⟩ := execUpdate_cases h
    exact (absorbAll_keeps_inv hi hu : u.Inv)
  | final p => exact ctx_inv_of_eq hi (execFinal_ctx h)
  | xform p => exact ctx_inv_of_eq hi (.inl (exec_pure_ctx rfl h))
  | xform8 p => exact ctx_inv_of_eq hi (.inl (exec_pure_ctx rfl h))
  | trn p => exact ctx_inv_of_eq hi (.inl (exec_pure_ctx rfl h))
  | batch8 p => exact ctx_inv_of_eq hi (.inl (exec_pure_ctx rfl h))
  | hex p => exact ctx_inv_of_eq hi (.inl (exec_pure_ctx rfl h))

/-- Settles O45: a step resets, waits, answers an error, or runs a command; only INIT, UPDATE and FINAL write the context, and what
they leave meets the invariant. -/
theorem stepKeepsInvariant : Obligations.StepKeepsInvariant := by
  unfold Obligations.StepKeepsInvariant
  intro s t hi h
  cases hr : s.resetPin with
  | true =>
    rw [step_of_reset hr] at h
    cases h
    exact initial_inv
  | false =>
    cases hd : decode s.input with
    | wait k =>
      rw [step_of_wait hr hd] at h
      cases h
      exact hi
    | reserved opc len rest =>
      rw [step_of_reserved hr hd] at h
      cases h
      exact hi
    | command i rest =>
      rw [step_of_command hr hd] at h
      exact exec_keeps_inv (s := { s with input := rest }) hi h

/-- Settles O43: the context after reset is the initial one, whose phase is `Empty` and which meets the invariant. -/
theorem resetState : Obligations.ResetState := by
  unfold Obligations.ResetState
  exact ⟨rfl, rfl, rfl, rfl, rfl, rfl, if_pos rfl, initial_inv⟩

end Sys2Proof.Proofs
end

section
/-! PROOFS, family 10_state: the constant tables are root fractions of the primes (R27, R28). -/

namespace Sys2Proof.Proofs

open Sys2Proof Sys2Proof.Machine

/-- The two inequalities of a root fraction with `q` as the whole part of the root, as a check that computes. -/
def rootBounds (k p : Nat) (w : Word) (q : Nat) : Bool :=
  decide ((q * 2 ^ 32 + w.toNat) ^ k ≤ p * 2 ^ (32 * k)) &&
    decide (p * 2 ^ (32 * k) < (q * 2 ^ 32 + w.toNat + 1) ^ k)

/-- A whole part below 8 that passes the check makes the word the root's fraction. -/
theorem isRootFraction_of_any {k p : Nat} {w : Word} (h : (List.range 8).any (rootBounds k p w) = true) :
    isRootFraction k p w := by
  obtain ⟨q, -, hq⟩ := List.any_eq_true.1 h
  simp only [rootBounds, Bool.and_eq_true, decide_eq_true_eq] at hq
  exact ⟨q, hq⟩

theorem primes64_length : primes64.length = 64 := by decide +kernel

/-- Cube roots of primes up to 311 have a whole part below 8. -/
theorem K_rootBounds : ∀ t : Fin 64,
    (List.range 8).any (rootBounds 3 (primes64.getD t.val 0) (K (BitVec.ofFin t))) = true := by decide +kernel

/-- Square roots of the first eight primes have a whole part below 8. -/
theorem IV_rootBounds : ∀ i : Fin 8,
    (List.range 8).any (rootBounds 2 (primes64.getD i.val 0) IV[i]) = true := by decide +kernel

/-- Settles O5: for each table word the whole part of the root is found below 8, and the inequalities hold with it. -/
theorem romTablesAreRootFractions : Obligations.RomTablesAreRootFractions := by
  unfold Obligations.RomTablesAreRootFractions
  exact ⟨primes64_length, fun t => isRootFraction_of_any (K_rootBounds t),
    fun i => isRootFraction_of_any (IV_rootBounds i)⟩

end Sys2Proof.Proofs
end

section
/-! PROOFS, family 20_memory: the byte space gives back what was written, and stops outside the space and at unwritten bytes (R46). -/

namespace Sys2Proof.Proofs

open Sys2Proof Sys2Proof.Machine Sys2Proof.Laws

/-- `MemWrite` inside the byte space answers. -/
theorem memWrite_inside (m : Memory) {a : Nat} {v : List Byte} (h : a + v.length ≤ memSize) :
    memWrite m a v = .ok (m.setBytes a v) := if_pos h

/-- `MemWrite` past the byte space stops. -/
theorem memWrite_outside (m : Memory) {a : Nat} {v : List Byte} (h : memSize < a + v.length) :
    memWrite m a v = .error (.memRange a v.length) := if_neg (Nat.not_le.2 h)

/-- `MemRead` inside the byte space reads the bytes of the range. -/
theorem memRead_inside (m : Memory) {a n : Nat} (h : a + n ≤ memSize) : memRead m a n = m.getBytes a n := if_pos h

/-- `MemRead` past the byte space stops. -/
theorem memRead_outside (m : Memory) {a n : Nat} (h : memSize < a + n) :
    memRead m a n = .error (.memRange a n) := if_neg (Nat.not_le.2 h)

/-- The bytes just written are the bytes read. -/
theorem getBytes_setBytes (m : Memory) (a : Nat) (v : List Byte) : (m.setBytes a v).getBytes a v.length = .ok v :=
  getBytes_of_get? v _ a fun i hi => get?_setBytes_inside v m a i hi

/-- A read stops at the first address of its range that holds no byte. -/
theorem getBytes_unwritten {m : Memory} {a n i : Nat} (hi : i < n) (hnone : m.get? (a + i) = none)
    (hsome : ∀ j : Nat, j < i → m.get? (a + j) ≠ none) : m.getBytes a n = .error (.memUnwritten (a + i)) := by
  induction n generalizing a i with
  | zero => exact absurd hi (Nat.not_lt_zero i)
  | succ n ih =>
    cases i with
    | zero =>
      rw [Nat.add_zero] at hnone
      simp [Memory.getBytes, hnone]
    | succ i =>
      obtain ⟨b, hb⟩ := Option.ne_none_iff_exists'.1 (hsome 0 (Nat.succ_pos i))
      rw [Nat.add_zero] at hb
      have hshift : ∀ j, a + (j + 1) = a + 1 + j := fun j => by omega
      rw [hshift] at hnone
      have hrest := ih (Nat.lt_of_succ_lt_succ hi) hnone fun j hj =>
        hshift j ▸ hsome (j + 1) (Nat.succ_lt_succ hj)
      rw [Memory.getBytes, hb, hrest, hshift i]

/-- Settles O15: a write is read back and leaves the other addresses alone; an access past the space, and a read of an unwritten byte,
stop. -/
theorem byteSpaceReadsAndWrites : Obligations.ByteSpaceReadsAndWrites := by
  unfold Obligations.ByteSpaceReadsAndWrites
  refine ⟨fun m a v h => ⟨m.setBytes a v, memWrite_inside m h, ?_, get?_setBytes_outside v m a⟩,
    fun m a v h => memWrite_outside m h, fun m a n h => memRead_outside m h, fun m a n i h hi hnone hsome => ?_⟩
  · exact (memRead_inside _ h).trans (getBytes_setBytes m a v)
  · exact (memRead_inside m h).trans (getBytes_unwritten hi hnone hsome)

end Sys2Proof.Proofs
end

section
/-! PROOFS, family 20_memory: a pure command answers the same bytes in every state and leaves the context as it was (R49, R188). -/

namespace Sys2Proof.Proofs

open Sys2Proof Sys2Proof.Machine Sys2Proof.Laws

/-- A meaning that in every state appends one and the same byte sequence to the responses and changes nothing else the host sees. -/
def AppendsSameBytes (run : State → Host.Outcome State Fault Refusal) : Prop :=
  ∃ bytes : List Byte, ∀ s : State, ∃ t, run s = .next t ∧
    t.visible = { s.visible with output := s.visible.output ++ bytes }

/-- A command that checks its payload's length answers one error in every state, or what it answers with the right length (R181). -/
theorem appendsSameBytes_checked (c : Prop) [Decidable c] (e : Error) (bs : List Byte) {run : State → State}
    (hrun : ∀ s, (run s).visible = { s.visible with output := s.visible.output ++ responseBytes okCode bs }) :
    AppendsSameBytes fun s => if c then .next (raise e s) else .next (run s) := by
  by_cases hc : c
  · exact ⟨responseBytes e.code [], fun s => ⟨raise e s, if_pos hc, raise_visible e s⟩⟩
  · exact ⟨responseBytes okCode bs, fun s => ⟨run s, if_neg hc, hrun s⟩⟩

/-- Each pure command answers the pure function of its unit on the operands in its payload. -/
theorem exec_pure_appendsSameBytes {i : Instr} (hp : isPure i = true) : AppendsSameBytes (exec i) := by
  cases i with
  | init p => cases hp
  | update p => cases hp
  | final p => cases hp
  | xform p =>
    exact appendsSameBytes_checked _ _ (encodeState (transform (stateAt p 0) (blockAt p 32)))
      fun s => by simp [runScalar_eq]
  | xform8 p =>
    exact appendsSameBytes_checked _ _ (encodeStates (transform8 (statesAt p 0) (blocksAt p 256)))
      fun s => by simp [runVector_eq]
  | trn p =>
    exact appendsSameBytes_checked _ _ (encodeMatrix (transpose (matrixAt p 0)))
      fun s => by simp [runTranspose_result]
  | batch8 p =>
    exact appendsSameBytes_checked _ _ (encodeStates (transform8 (Vector.replicate 8 IV) (blocksAt p 0)))
      fun s => by simp [runVector_eq]
  | hex p =>
    exact appendsSameBytes_checked _ _ (hexStr (digestAt p 0)) fun s => by simp

/-- Settles O34: the bytes are those of the pure function, or of the length error, and the visible part of the state else stays. -/
theorem pureCommandsIgnoreTheState : Obligations.PureCommandsIgnoreTheState := by
  unfold Obligations.PureCommandsIgnoreTheState
  intro i hp
  obtain ⟨bytes, hall⟩ := exec_pure_appendsSameBytes hp
  refine ⟨bytes, fun s => ?_⟩
  obtain ⟨t, ht, hv⟩ := hall s
  exact ⟨t, ht, congrArg Visible.output hv, congrArg Visible.ctx hv, congrArg Visible.input hv,
    congrArg Visible.resetPin hv⟩

end Sys2Proof.Proofs
end

section
/-! PROOFS, family 20_memory: byte order (R42 to R44), and the step as the run of the decoded command (R52). -/

namespace Sys2Proof.Proofs

open Sys2Proof Sys2Proof.Machine Sys2Proof.Laws

/-- Appending bits below multiplies the value above by their weight. -/
theorem toNat_append_eq {n k : Nat} (x : BitVec n) (y : BitVec k) : (x ++ y).toNat = x.toNat * 2 ^ k + y.toNat := by
  rw [BitVec.toNat_append, ← Nat.shiftLeft_add_eq_or_of_lt y.isLt, Nat.shiftLeft_eq]

/-- The positional value of four bytes (R42). -/
theorem be32_toNat (b0 b1 b2 b3 : Byte) :
    (be32 b0 b1 b2 b3).toNat = b0.toNat * 2 ^ 24 + b1.toNat * 2 ^ 16 + b2.toNat * 2 ^ 8 + b3.toNat := by
  simp only [be32, toNat_append_eq]
  omega

/-- The bytes of a word made of four bytes are those bytes (R43). -/
theorem toBe32_be32 (b0 b1 b2 b3 : Byte) : toBe32 (be32 b0 b1 b2 b3) = [b0, b1, b2, b3] := by
  simp only [toBe32, List.cons.injEq, and_true, BitVec.toNat_eq, BitVec.extractLsb'_toNat, be32_toNat,
    Nat.shiftRight_eq_div_pow]
  omega

/-- Settles O1: the values by position, and both round trips. -/
theorem bigEndianBytes : Obligations.BigEndianBytes := by
  unfold Obligations.BigEndianBytes
  exact ⟨fun b0 b1 b2 b3 => ⟨be32_toNat b0 b1 b2 b3, toBe32_be32 b0 b1 b2 b3⟩, fun _ => rfl, be32_split, fun _ => rfl⟩

/-- Settles O38: the step branches on what the decoder finds, and on nothing else once reset is not asserted. -/
theorem stepRunsTheDecodedCommand : Obligations.StepRunsTheDecodedCommand := by
  unfold Obligations.StepRunsTheDecodedCommand
  exact fun _ hp => ⟨fun _ _ => step_of_command hp, fun _ _ _ => step_of_reserved hp, fun _ => step_of_wait hp⟩

end Sys2Proof.Proofs
end

section
/-! PROOFS, family 30_encoding: a frame at the front of the input, and what the decoder makes of it (R61 to R73). -/

namespace Sys2Proof.Proofs

open Sys2Proof Sys2Proof.Machine Sys2Proof.Laws

/-! ### The decoder behind a header -/

/-- Fewer than four bytes are no header yet (R71). -/
theorem decode_short {bs : List Byte} (h : bs.length < 4) : decode bs = .wait (4 - bs.length) := by
  match bs, h with
  | [], _ | [_], _ | [_, _], _ | [_, _, _], _ => rfl
  | _ :: _ :: _ :: _ :: _, h => exact absurd h (by simp)

theorem decodeBody_wait {hdr : Word} {tail : List Byte} (h : tail.length < headerLen hdr) :
    decodeBody hdr tail = .wait (headerLen hdr - tail.length) := if_pos h

theorem decodeBody_command {hdr : Word} {p rest : List Byte} {i : Instr} (hl : headerLen hdr = p.length)
    (hi : ofOpcode (headerOpc hdr) p = some i) : decodeBody hdr (p ++ rest) = .command i rest := by
  simp [decodeBody, hl, hi]

theorem decodeBody_reserved {hdr : Word} {p rest : List Byte} (hl : headerLen hdr = p.length)
    (hi : ofOpcode (headerOpc hdr) p = none) :
    decodeBody hdr (p ++ rest) = .reserved (headerOpc hdr) p.length rest := by
  simp [decodeBody, hl, hi]

/-! ### A complete frame -/

/-- A length up to `LEN_MAX` reads back from the 24-bit field (R63). -/
theorem headerLen_of_le (opc : Byte) {n : Nat} (h : n ≤ Config.lenMax) : headerLen (opc ++ BitVec.ofNat 24 n) = n := by
  rw [headerLen_pack, BitVec.toNat_ofNat]
  exact Nat.mod_eq_of_lt (Nat.lt_succ_of_le h)

theorem decode_frame_command {opc : Byte} {p : List Byte} {i : Instr} (rest : List Byte)
    (hl : p.length ≤ Config.lenMax) (hi : ofOpcode opc p = some i) :
    decode (frameBytes opc p ++ rest) = .command i rest := by
  rw [frameBytes, List.append_assoc, decode_headerBytes]
  exact decodeBody_command (headerLen_of_le opc hl) (by rwa [headerOpc_pack])

theorem decode_frame_reserved {opc : Byte} {p : List Byte} (rest : List Byte)
    (hl : p.length ≤ Config.lenMax) (hi : ofOpcode opc p = none) :
    decode (frameBytes opc p ++ rest) = .reserved opc p.length rest := by
  rw [frameBytes, List.append_assoc, decode_headerBytes,
    decodeBody_reserved (headerLen_of_le opc hl) (by rwa [headerOpc_pack]), headerOpc_pack]

/-- Settles O35: a command is a frame of its own opcode and payload, and the opcode map gives that command back. -/
theorem decodeEncode : Obligations.DecodeEncode := by
  unfold Obligations.DecodeEncode
  intro i rest h
  exact decode_frame_command rest (of_decide_eq_true h) (ofOpcode_opcode i)

/-! ### A proper part of a frame -/

/-- A proper part of a frame is too short for a header, or for the payload its header announces (R71). -/
theorem decode_frame_take (opc : Byte) {p : List Byte} {k : Nat} (hl : p.length ≤ Config.lenMax)
    (hk : k < 4 + p.length) : ∃ m, decode ((frameBytes opc p).take k) = .wait m := by
  by_cases h4 : k < 4
  · exact ⟨_, decode_short (by rw [List.length_take]; omega)⟩
  · rw [frameBytes, List.take_append, List.take_of_length_le (by rw [headerBytes_length]; omega),
      decode_headerBytes]
    refine ⟨_, decodeBody_wait ?_⟩
    rw [headerLen_of_le opc hl, List.length_take, headerBytes_length]
    omega

/-- Settles O39: the decoder waits at a proper part of a frame, and the step that waits changes nothing. -/
theorem incompleteFrameWaits : Obligations.IncompleteFrameWaits := by
  unfold Obligations.IncompleteFrameWaits
  intro s opc payload k hp hl hk hin
  obtain ⟨m, hm⟩ := decode_frame_take opc hl hk
  exact step_of_wait hp (hin ▸ hm)

/-! ### Any byte stream -/

/-- The opcodes with no command are the ones not assigned, whatever the payload (R64, R69). -/
theorem ofOpcode_eq_none_iff (opc : Byte) (p : List Byte) : ofOpcode opc p = none ↔ opc ∉ assignedOpcodes := by
  unfold ofOpcode
  split_ifs <;> simp_all [assignedOpcodes]

/-- The header of four bytes announces the number of the last three (R42, R63). -/
theorem headerLen_be32 (b0 b1 b2 b3 : Byte) :
    headerLen (be32 b0 b1 b2 b3) = b1.toNat * 2 ^ 16 + b2.toNat * 2 ^ 8 + b3.toNat := by
  rw [headerLen, BitVec.extractLsb'_toNat, be32_toNat, Nat.shiftRight_zero]
  omega

theorem headerLen_le (hdr : Word) : headerLen hdr ≤ Config.lenMax :=
  Nat.le_of_lt_succ (BitVec.isLt _)

/-- The fields of a header make its four bytes again (R63). -/
theorem headerBytes_fields (hdr : Word) : headerBytes (headerOpc hdr) (headerLen hdr) = toBe32 hdr := by
  have h : headerOpc hdr ++ BitVec.ofNat 24 (headerLen hdr) = hdr := by
    rw [headerOpc, headerLen, BitVec.ofNat_toNat, BitVec.setWidth_eq,
      BitVec.extractLsb'_append_extractLsb'_eq_extractLsb' (by rfl)]
    exact BitVec.extractLsb'_eq_self
  rw [headerBytes, h]

/-- A header and all the payload it announces are a frame, and the rest of the stream stands behind it (R61). -/
theorem eq_frameBytes_append {b0 b1 b2 b3 : Byte} {tail : List Byte} (h : headerLen (be32 b0 b1 b2 b3) ≤ tail.length) :
    ∃ p rest, p.length = headerLen (be32 b0 b1 b2 b3) ∧
    b0 :: b1 :: b2 :: b3 :: tail = frameBytes (headerOpc (be32 b0 b1 b2 b3)) p ++ rest := by
  have hp : (tail.take (headerLen (be32 b0 b1 b2 b3))).length = headerLen (be32 b0 b1 b2 b3) :=
    List.length_take_of_le h
  refine ⟨tail.take (headerLen (be32 b0 b1 b2 b3)), tail.drop (headerLen (be32 b0 b1 b2 b3)), hp, ?_⟩
  rw [frameBytes, hp, headerBytes_fields, toBe32_be32, List.append_assoc, List.take_append_drop]
  rfl

/-- Settles O36: by the length of the stream, then by the payload bytes present, then by the opcode. -/
theorem decodeIsUnambiguous : Obligations.DecodeIsUnambiguous := by
  unfold Obligations.DecodeIsUnambiguous
  intro bs
  match bs with
  | [] | [_] | [_, _] | [_, _, _] => exact .inr (.inr ⟨_, rfl, by simp, .inl ⟨by simp, rfl⟩⟩)
  | b0 :: b1 :: b2 :: b3 :: tail =>
    by_cases hl : tail.length < headerLen (be32 b0 b1 b2 b3)
    · refine .inr (.inr ⟨_, decodeBody_wait hl, by omega, .inr ⟨b0, b1, b2, b3, tail, rfl, ?_⟩⟩)
      rw [← headerLen_be32 b0]
      omega
    · obtain ⟨p, rest, hp, hbs⟩ := eq_frameBytes_append (Nat.le_of_not_lt hl)
      have hmax : p.length ≤ Config.lenMax := hp ▸ headerLen_le _
      rw [hbs]
      cases hi : ofOpcode (headerOpc (be32 b0 b1 b2 b3)) p with
      | some i =>
        obtain ⟨hopc, rfl⟩ := ofOpcode_some hi
        rw [← hopc]
        exact .inl ⟨i, rest, hopc ▸ decode_frame_command rest hmax hi, rfl, decide_eq_true hmax⟩
      | none =>
        exact .inr (.inl ⟨_, p, rest, decode_frame_reserved rest hmax hi, rfl, hmax,
          (ofOpcode_eq_none_iff _ p).1 hi⟩)

/-- Settles O37: the decoder is evaluated on each word. -/
theorem decodingExamples : Obligations.DecodingExamples := by
  unfold Obligations.DecodingExamples
  decide +kernel

end Sys2Proof.Proofs
end

section
/-! PROOFS, family 30_encoding: the 8-way construction is the scalar transform in every lane (R121 to R133). -/

namespace Sys2Proof.Proofs

open Sys2Proof Sys2Proof.Machine Sys2Proof.Laws

/-! ### The vector operations in one lane (R122, R123) -/

@[simp] theorem lanes1_lane (f : Word → Word) (x : VReg) {l : Nat} (hl : l < 8) : (lanes1 f x)[l] = f x[l] :=
  Vector.getElem_ofFn hl

@[simp] theorem lanes2_lane (f : Word → Word → Word) (x y : VReg) {l : Nat} (hl : l < 8) :
    (lanes2 f x y)[l] = f x[l] y[l] :=
  Vector.getElem_ofFn hl

section
variable (x y z : VReg) {l : Nat} (hl : l < 8)

@[simp] theorem vadd_lane : (vadd x y)[l] = x[l] + y[l] := lanes2_lane _ x y hl

@[simp] theorem vbcast_lane (w : Word) : (vbcast w)[l] = w := Vector.getElem_replicate hl

@[simp] theorem vch_lane : (vch x y z)[l] = ch x[l] y[l] z[l] := by
  simp [vch, ch, vxor, vand, vnot]

@[simp] theorem vmaj_lane : (vmaj x y z)[l] = maj x[l] y[l] z[l] := by
  simp [vmaj, maj, vxor, vand]

@[simp] theorem vbsig0_lane : (vbsig0 x)[l] = bsig0 x[l] := by
  simp [vbsig0, bsig0, vxor, vrotr]

@[simp] theorem vbsig1_lane : (vbsig1 x)[l] = bsig1 x[l] := by
  simp [vbsig1, bsig1, vxor, vrotr]

@[simp] theorem vssig0_lane : (vssig0 x)[l] = ssig0 x[l] := by
  simp [vssig0, ssig0, vxor, vrotr, vshr]

@[simp] theorem vssig1_lane : (vssig1 x)[l] = ssig1 x[l] := by
  simp [vssig1, ssig1, vxor, vrotr, vshr]

end

/-! ### Packing (R111, R116, R117) -/

@[simp] theorem transpose_getElem (m : Matrix) {i j : Nat} (hi : i < 8) (hj : j < 8) : (transpose m)[i][j] = m[j][i] := by
  simp [transpose]

/-- Lane `l` of packed block vector `t` is word `t` of block `l`. -/
theorem packBlocks_lane (blocks : Vector Block 8) {t l : Nat} (ht : t < 16) (hl : l < 8) :
    (packBlocks blocks)[t][l] = (blockWords blocks[l])[t] := by
  unfold packBlocks
  by_cases h8 : t < 8
  · exact (congrArg (·[l]) (Vector.getElem_append_left h8)).trans (by simp [firstHalves])
  · have hadd : 8 + (t - 8) = t := by omega
    exact (congrArg (·[l]) (Vector.getElem_append_right ht (Nat.le_of_not_lt h8))).trans
      (by simp [secondHalves, hadd])

/-! ### One lane of the unit -/

/-- Lane `l` of the 8-way unit, as the registers of a scalar unit (R121). -/
def laneOf (l : Fin 8) (v : VectorUnit) : ScalarUnit :=
  { a := v.vs[0][l.val], b := v.vs[1][l.val], c := v.vs[2][l.val], d := v.vs[3][l.val],
    e := v.vs[4][l.val], f := v.vs[5][l.val], g := v.vs[6][l.val], h := v.vs[7][l.val],
    t1 := v.vt1[l.val], t2 := v.vt2[l.val], w := v.vw.map fun x => x[l.val], t := v.t }

variable (l : Fin 8)

theorem laneOf_loadBlocks (v : VectorUnit) (blocks : Vector Block 8) :
    laneOf l (v.loadBlocks blocks) = (laneOf l v).loadBlock blocks[l.val] := by
  simp only [laneOf, VectorUnit.loadBlocks, ScalarUnit.loadBlock, ScalarUnit.mk.injEq, true_and, and_true]
  ext i hi
  by_cases h16 : i < 16
  · simp [h16, packBlocks_lane]
  · simp [h16]

theorem laneOf_loadStates (v : VectorUnit) (states : Vector HashState 8) :
    laneOf l (v.loadStates states) = (laneOf l v).loadState states[l.val] := by
  simp [laneOf, VectorUnit.loadStates, ScalarUnit.loadState, packStates]

theorem laneOf_sched (v : VectorUnit) (t : Nat) : (laneOf l v).sched t = (v.sched t)[l.val] := by
  by_cases h : t < 64
  · simp [laneOf, ScalarUnit.sched, VectorUnit.sched, Vector.getD, Array.getD_eq_getD_getElem?, h]
  · simp [laneOf, ScalarUnit.sched, VectorUnit.sched, Vector.getD, Array.getD_eq_getD_getElem?, h, zeroVReg]

theorem laneOf_schedStep (v : VectorUnit) (t : Nat) :
    laneOf l (v.schedStep t) = (laneOf l v).schedStep t := by
  simp only [ScalarUnit.schedStep, laneOf_sched]
  simp [laneOf, VectorUnit.schedStep, Vector.map_setIfInBounds, BitVec.add_assoc]

theorem laneOf_expand (n : Nat) (v : VectorUnit) :
    laneOf l (VectorUnit.expand n v) = ScalarUnit.expand n (laneOf l v) := by
  induction n with
  | zero => rfl
  | succ n ih => rw [VectorUnit.expand, laneOf_schedStep, ih, ScalarUnit.expand]

theorem laneOf_round (v : VectorUnit) : laneOf l v.round = (laneOf l v).round := by
  simp [laneOf, VectorUnit.round, ScalarUnit.round, BitVec.add_assoc]

theorem laneOf_rounds (n : Nat) (v : VectorUnit) :
    laneOf l (VectorUnit.rounds n v) = ScalarUnit.rounds n (laneOf l v) := by
  induction n with
  | zero => rfl
  | succ n ih => rw [VectorUnit.rounds, laneOf_round, ih, ScalarUnit.rounds]

/-! ### The whole construction in one lane -/

/-- The schedule does not depend on when the working registers take the input state. -/
theorem scalar_expand_loadState (n : Nat) (u : ScalarUnit) (st : HashState) :
    ScalarUnit.expand n (u.loadState st) = (ScalarUnit.expand n u).loadState st := by
  induction n with
  | zero => rfl
  | succ n ih => exact congrArg (ScalarUnit.schedStep · (16 + n)) ih

/-- The rounds leave the packed input states for the final addition. -/
theorem vector_rounds_vh (n : Nat) (v : VectorUnit) : (VectorUnit.rounds n v).vh = v.vh := by
  induction n with
  | zero => rfl
  | succ n ih => exact ih

theorem vector_expand_vh (n : Nat) (v : VectorUnit) : (VectorUnit.expand n v).vh = v.vh := by
  rw [vector_expand_eq]

/-- The final addition and the exit transpose give each lane's final addition. -/
theorem unpackStates_addInput_lane {v : VectorUnit} {states : Vector HashState 8} (hv : v.vh = packStates states) :
    (unpackStates v.addInput.vs)[l.val] = (laneOf l v).result states[l.val] := by
  ext1 j hj
  have hsum : (unpackStates v.addInput.vs)[l.val][j] = states[l.val][j] + v.vs[j][l.val] := by
    simp [unpackStates, VectorUnit.addInput, hv, packStates]
  rw [hsum]
  interval_cases j <;> rfl

/-- Every lane of the 8-way transform is the scalar transform of that lane's State and Block (R121). -/
theorem transform8_lane (states : Vector HashState 8) (blocks : Vector Block 8) :
    (transform8 states blocks)[l.val] = transform states[l.val] blocks[l.val] := by
  rw [transform8, VectorUnit.run, unpackStates_addInput_lane l (states := states)]
  · rw [laneOf_rounds, laneOf_expand, laneOf_loadStates, laneOf_loadBlocks, scalar_expand_loadState]
    exact scalar_run_result _ _ _
  · rw [vector_rounds_vh, vector_expand_vh]
    rfl

theorem transform8_eq_ofFn (states : Vector HashState 8) (blocks : Vector Block 8) :
    transform8 states blocks = Vector.ofFn fun l : Fin 8 => transform states[l.val] blocks[l.val] :=
  Vector.ext fun i hi => by simpa using transform8_lane ⟨i, hi⟩ states blocks

end Sys2Proof.Proofs
end

section
/-! PROOFS, family 30_encoding: the hasher on the byte space is the hasher of the typed view (R145 to R158). -/

namespace Sys2Proof.Proofs

open Sys2Proof Sys2Proof.Machine Sys2Proof.Laws

/-! ### Folding a block at a time (R105) -/

theorem byteAt_append {bs : List Byte} (rest : List Byte) {i : Nat} (hi : i < bs.length) :
    byteAt (bs ++ rest) i = byteAt bs i := by
  simp [byteAt, List.getElem?_append_left hi]

/-- A block at the front of a byte sequence does not read what stands behind it. -/
theorem blockAt_append {bs : List Byte} (rest : List Byte) (h : bs.length = 64) :
    blockAt (bs ++ rest) 0 = blockAt bs 0 := by
  ext1 i hi
  simp [blockAt, byteAt_append rest (show i < bs.length by omega)]

theorem fold_nil (st : HashState) : fold st [] = st := rfl

theorem fold_block_append (st : HashState) {bs : List Byte} (rest : List Byte) (h : bs.length = 64) :
    fold st (bs ++ rest) = fold (transform st (blockAt bs 0)) rest := by
  have hq : (bs ++ rest).length / 64 = rest.length / 64 + 1 := by rw [List.length_append]; omega
  rw [fold, hq, foldBlocks, blockAt_append rest h, List.drop_left' h, fold]

theorem fold_block (st : HashState) {bs : List Byte} (h : bs.length = 64) :
    fold st bs = transform st (blockAt bs 0) := by
  simpa [fold_nil] using fold_block_append st [] h

/-! ### Absorbing one byte (R146) -/

/-- A transform of 64 buffered bytes answers the pure function and drops the scalar unit's registers. -/
theorem transformAt_cells (h : HashState) (bs : List Byte) (off : Nat) (s : State) (hoff : off + 64 ≤ bs.length)
    (hb : bs.length ≤ memSize) :
    transformAt h (cells 0 bs) off s = .ok (transform h (blockAt ((bs.drop off).take 64) 0), dropScalar s) := by
  rw [transformAt, memRead_cells bs off 64 hoff hb, ← runScalar_eq]

/-- The byte is written behind the buffered ones. -/
theorem memWrite_bufLen {c : Context} (hc : c.Inv) (x : Byte) :
    memWrite c.mem c.bufLen.toNat [x] = .ok (cells 0 (c.buffered ++ [x])) := by
  have hl := inv_buffered_length hc
  have hlt : c.bufLen.toNat < 64 := hc.1
  rw [Laws.inv_mem hc, ← hl]
  exact memWrite_end c.buffered [x] (by simp [memSize]; omega)

/-- With room in the block the byte goes into the buffer. -/
theorem absorb_room {s : State} (x : Byte) (hi : s.Inv) (hn : s.ctx.bufLen ≠ 63) :
    absorb x s = .ok { s with ctx := { s.ctx with
      mem := cells 0 (s.ctx.buffered ++ [x]), bufLen := s.ctx.bufLen + 1 } } := by
  have h64 : s.ctx.bufLen + 1 ≠ 64 := by bv_omega
  simp only [absorb, memWrite_bufLen hi, if_neg h64]

/-- The last byte of a block runs the transform and empties the buffer. -/
theorem absorb_full {s : State} (x : Byte) (hi : s.Inv) (hn : s.ctx.bufLen = 63) :
    absorb x s = .ok { dropScalar s with ctx :=
      { h := transform s.ctx.h (blockAt (s.ctx.buffered ++ [x]) 0), mem := [], bufLen := 0,
        bitLen := s.ctx.bitLen + 512 } } := by
  have hl : (s.ctx.buffered ++ [x]).length = 64 := by
    rw [List.length_append, inv_buffered_length hi, hn]
    rfl
  have h64 : s.ctx.bufLen + 1 = 64 := by rw [hn]; rfl
  have hrun := transformAt_cells s.ctx.h (s.ctx.buffered ++ [x]) 0 s (by omega) (by rw [hl]; decide)
  rw [List.drop_zero, List.take_of_length_le (by omega)] at hrun
  simp only [absorb, memWrite_bufLen hi, if_pos h64, hrun]

/-! ### The typed view of UPDATE (R147) -/

/-- The typed context behind one more byte: in the buffer, or with the full block folded into `H` (R146). -/
def pushByte (x : Byte) (c : Hasher) : Hasher :=
  if c.buf.length = 63 then
    { h := transform c.h (blockAt (c.buf ++ [x]) 0), buf := [], bitLen := c.bitLen + 512 }
  else { c with buf := c.buf ++ [x] }

/-- An UPDATE of no bytes leaves a context that holds less than a block (R144). -/
theorem run_update_nil {c : Hasher} (hc : c.buf.length < 64) : (Cmd.update []).run c = (.ok [], c) := by
  have hq : c.buf.length / 64 = 0 := Nat.div_eq_of_lt hc
  simp [Cmd.run, hq, fold_nil]

/-- The block-wise UPDATE takes its first byte as the hasher absorbs it. -/
theorem run_update_cons (x : Byte) (xs : List Byte) (c : Hasher) :
    (Cmd.update (x :: xs)).run c = (Cmd.update xs).run (pushByte x c) := by
  have hd : c.buf ++ x :: xs = (c.buf ++ [x]) ++ xs := by simp
  unfold pushByte
  split
  · rename_i h63
    have hl : (c.buf ++ [x]).length = 64 := by simp [h63]
    have hq : (c.buf ++ [x] ++ xs).length / 64 = xs.length / 64 + 1 := by rw [List.length_append]; omega
    have hm : 64 * (xs.length / 64 + 1) = (c.buf ++ [x]).length + 64 * (xs.length / 64) := by omega
    have hbits : BitVec.ofNat 64 (512 * (xs.length / 64 + 1)) = 512 + BitVec.ofNat 64 (512 * (xs.length / 64)) := by
      rw [Nat.mul_succ, Nat.add_comm, BitVec.ofNat_add]
      rfl
    simp only [Cmd.run, hd, hq, hm, List.take_length_add_append, List.drop_length_add_append, List.nil_append,
      fold_block_append _ _ hl, hbits, BitVec.add_assoc]
  · simp only [Cmd.run, hd]

theorem typed_of_cells (h : HashState) (bs : List Byte) (n : BitVec 7) (d : Dword) :
    Context.typed { h := h, mem := cells 0 bs, bufLen := n, bitLen := d } = { h := h, buf := bs, bitLen := d } := by
  simp [Context.typed, Context.buffered]

theorem absorb_typed (x : Byte) {s : State} (hi : s.Inv) :
    ∃ c u n, absorb x s = .ok { s with ctx := c, scalar := u, draws := n } ∧ c.typed = pushByte x s.ctx.typed := by
  have hl : s.ctx.typed.buf.length = s.ctx.bufLen.toNat := inv_buffered_length hi
  by_cases hn : s.ctx.bufLen = 63
  · have h63 : s.ctx.typed.buf.length = 63 := by rw [hl, hn]; rfl
    exact ⟨_, _, _, absorb_full x hi hn, (if_pos h63).symm⟩
  · have h63 : s.ctx.typed.buf.length ≠ 63 := by bv_omega
    exact ⟨_, _, _, absorb_room x hi hn, (typed_of_cells ..).trans (if_neg h63).symm⟩

/-- Absorbing a payload leaves what the typed UPDATE says, and touches only the context and the scalar unit (R145). -/
theorem absorbAll_typed (xs : List Byte) {s : State} (hi : s.Inv) :
    ∃ c u n, absorbAll xs s = .ok { s with ctx := c, scalar := u, draws := n } ∧
      c.typed = ((Cmd.update xs).run s.ctx.typed).2 := by
  induction xs generalizing s with
  | nil =>
    exact ⟨_, _, _, rfl, by rw [run_update_nil]; exact (inv_buffered_length hi).trans_lt hi.1⟩
  | cons x xs ih =>
    obtain ⟨c, u, n, habs, hc⟩ := absorb_typed x hi
    obtain ⟨c', u', n', hall, hc'⟩ := ih (absorb_keeps_inv hi habs)
    refine ⟨c', u', n', by rw [absorbAll, habs]; exact hall, ?_⟩
    rw [hc', run_update_cons, ← hc]

/-! ### The padded buffer and FINAL (R153 to R158) -/

theorem padBytes_length {buf : List Byte} (total : Dword) (h : buf.length < 64) :
    (padBytes buf total).length = paddedLen buf.length := by
  simp only [padBytes, padZeros, paddedLen, List.length_append, zeros_length, toBe64_length, List.length_singleton]
  split <;> omega

theorem padBuffer_eq {c : Context} (hc : c.Inv) :
    padBuffer c = .ok (cells 0 (padBytes c.buffered (totalBits c))) := by
  have hl := inv_buffered_length hc
  have hlt := hl.trans_lt hc.1
  have h1 := memWrite_end c.buffered [0x80] (by simp [memSize]; omega)
  have hz : c.buffered.length + 1 + padZeros c.buffered.length = paddedLen c.buffered.length - 8 ∧
    paddedLen c.buffered.length ≤ memSize := by
    simp only [padZeros, paddedLen, memSize]
    split <;> omega
  have h2 := memWrite_end (c.buffered ++ [0x80]) (zeros (padZeros c.buffered.length)) (by simp; omega)
  have h3 := memWrite_end (c.buffered ++ [0x80] ++ zeros (padZeros c.buffered.length)) (toBe64 (totalBits c)) (by
    simp; omega)
  simp only [List.length_append, List.length_singleton, zeros_length, hz.1] at h2 h3
  simp only [padBuffer, Laws.inv_mem hc, ← hl, h1, h2, h3, padBytes]

/-- One transform for each block of the padded buffer folds the whole of it (R105, R156). -/
theorem finalTransforms_cells (h : HashState) {bs : List Byte} (s : State) (hb : bs.length = 64 ∨ bs.length = 128) :
    ∃ u n, finalTransforms h (cells 0 bs) bs.length s = .ok (fold h bs, { s with scalar := u, draws := n }) := by
  have hmem : bs.length ≤ memSize := by rcases hb with hb | hb <;> rw [hb] <;> decide
  have h0 := transformAt_cells h bs 0 s (by omega) hmem
  rcases hb with hb | hb
  · rw [List.drop_zero, List.take_of_length_le (by omega), ← fold_block h hb] at h0
    exact ⟨_, _, by simp only [finalTransforms, h0, hb]; rfl⟩
  · have h1 := transformAt_cells (transform h (blockAt (bs.take 64) 0)) bs 64 (dropScalar s) (by omega) hmem
    have hd : (bs.drop 64).length = 64 := by rw [List.length_drop, hb]
    have hfold : fold h bs = transform (transform h (blockAt (bs.take 64) 0)) (blockAt (bs.drop 64) 0) := by
      rw [← fold_block _ hd, ← fold_block_append h (bs.drop 64) (by rw [List.length_take]; omega),
        List.take_append_drop]
    rw [List.drop_zero] at h0
    rw [List.take_of_length_le hd.le, ← hfold] at h1
    exact ⟨_, _, by simp only [finalTransforms, h0, h1, hb]; rfl⟩

/-- FINAL answers the fold of the padded buffer and leaves the context initial; else it touches only the scalar unit (R158). -/
theorem execFinal_eq {s : State} (hi : s.Inv) :
    ∃ u n, execFinal [] s = .next (respondOk (encodeState (fold s.ctx.h (padBytes s.ctx.buffered (totalBits s.ctx))))
      { s with ctx := Context.initial, scalar := u, draws := n }) := by
  have hl := inv_buffered_length hi
  have hlen := padBytes_length (totalBits s.ctx) (hl.trans_lt hi.1)
  obtain ⟨u, n, hrun⟩ := finalTransforms_cells s.ctx.h (bs := padBytes s.ctx.buffered (totalBits s.ctx)) s (by
    rw [hlen, paddedLen]; split <;> simp)
  rw [hlen, hl] at hrun
  exact ⟨u, n, by simp only [execFinal, padBuffer_eq hi, hrun]; rfl⟩

end Sys2Proof.Proofs
end

section
/-! PROOFS, family 30_encoding: each frame is answered as the typed view says (R74), with exactly one response (R66, R181). -/

namespace Sys2Proof.Proofs

open Sys2Proof Sys2Proof.Machine Sys2Proof.Laws

/-! ### The lengths of the responses (R67) -/

@[simp] theorem encodeState_length (st : HashState) : (encodeState st).length = 32 := by
  simp [encodeState, List.length_flatMap]

@[simp] theorem encodeStates_length (sts : Vector HashState 8) : (encodeStates sts).length = 256 := by
  simp [encodeStates, List.length_flatMap]

@[simp] theorem encodeMatrix_length (m : Matrix) : (encodeMatrix m).length = 256 := by
  simp [encodeMatrix, List.length_flatMap]

@[simp] theorem hexStr_length (d : Digest) : (hexStr d).length = 64 := by
  simp [hexStr, hexByte, List.length_flatMap]

/-- A command with typed operands answers OK, with as many bytes as its opcode's response has. -/
theorem run_ofOperands_ok (i : Instr) (x : Hasher) :
    ∃ bytes, ((Cmd.ofOperands i).run x).1 = .ok bytes ∧ bytes.length = okRlen i.opcode := by
  cases i with
  | init p => exact ⟨_, rfl, rfl⟩
  | update p => exact ⟨_, rfl, rfl⟩
  | final p => exact ⟨_, rfl, encodeState_length _⟩
  | xform p => exact ⟨_, rfl, encodeState_length _⟩
  | xform8 p => exact ⟨_, rfl, encodeStates_length _⟩
  | trn p => exact ⟨_, rfl, encodeMatrix_length _⟩
  | batch8 p => exact ⟨_, rfl, encodeStates_length _⟩
  | hex p => exact ⟨_, rfl, hexStr_length _⟩

/-! ### Commands with the length their format requires -/

theorem length_of_wellFormed {i : Instr} {n : Nat} (hw : i.wellFormed = true) (hn : i.format.requiredLen = some n) :
    i.payload.length = n := by
  simp only [Instr.wellFormed, hn, Bool.and_eq_true, decide_eq_true_eq] at hw
  exact hw.2

/-- The outcome from `s` is what the typed command says: its response behind those in the stream, its context, and nothing else the
host sees is changed. -/
def AnswersAs (c : Cmd) (s : State) (o : Host.Outcome State Fault Refusal) : Prop :=
  ∃ t, o = .next t ∧
    t.visible = { s.visible with ctx := t.ctx, output := s.output ++ (c.run s.ctx.typed).1.bytes } ∧
    t.ctx.typed = (c.run s.ctx.typed).2

/-- A response OK from a state that the host cannot tell from `s` but for the context. -/
theorem answersAs_respondOk {c : Cmd} {s u : State} {bytes : List Byte}
    (hrun : c.run s.ctx.typed = (.ok bytes, u.ctx.typed)) (hu : u.visible = { s.visible with ctx := u.ctx }) :
    AnswersAs c s (.next (respondOk bytes u)) := by
  refine ⟨respondOk bytes u, rfl, ?_, by rw [hrun, respondOk_ctx]⟩
  rw [respondOk_visible, hu, hrun]
  rfl

/-- A command that checks its payload's length, with the length it asks for. -/
theorem answersAs_checked {c : Cmd} {e : Error} {s u : State} {p bytes : List Byte} {n : Nat} (hp : p.length = n)
    (hrun : c.run s.ctx.typed = (.ok bytes, u.ctx.typed)) (hu : u.visible = { s.visible with ctx := u.ctx }) :
    AnswersAs c s (if p.length ≠ n then .next (raise e s) else .next (respondOk bytes u)) := by
  rw [if_neg (not_not.2 hp)]
  exact answersAs_respondOk hrun hu

theorem execUpdate_answersAs (p : List Byte) {s : State} (hi : s.Inv) :
    AnswersAs (.update p) s (execUpdate p s) := by
  obtain ⟨c, u, n, habs, hc⟩ := absorbAll_typed p hi
  rw [execUpdate, habs]
  exact answersAs_respondOk (Prod.ext rfl hc.symm) rfl

theorem execFinal_answersAs {p : List Byte} {s : State} (hi : s.Inv) (hp : p.length = 0) :
    AnswersAs .final s (execFinal p s) := by
  obtain ⟨u, n, hfin⟩ := execFinal_eq hi
  rw [List.length_eq_zero_iff.1 hp, hfin]
  refine answersAs_respondOk ?_ rfl
  simp only [Cmd.run, typed_h, typed_buf, typed_bitLen, inv_buffered_length hi, initial_typed, totalBits]

/-- A command whose payload has the length its format requires runs as its typed form. -/
theorem exec_answersAs {i : Instr} {s : State} (hi : s.Inv) (hw : i.wellFormed = true) :
    AnswersAs (Cmd.ofOperands i) s (exec i s) := by
  cases i with
  | init p => exact answersAs_checked (length_of_wellFormed hw rfl) rfl rfl
  | update p => exact execUpdate_answersAs p hi
  | final p => exact execFinal_answersAs hi (length_of_wellFormed hw rfl)
  | xform p => exact answersAs_checked (length_of_wellFormed hw rfl) (by rw [runScalar_eq]; rfl) rfl
  | xform8 p =>
    exact answersAs_checked (length_of_wellFormed hw rfl) (by rw [runVector_eq, transform8_eq_ofFn]; rfl) rfl
  | trn p => exact answersAs_checked (length_of_wellFormed hw rfl) rfl rfl
  | batch8 p =>
    exact answersAs_checked (length_of_wellFormed hw rfl)
      (by simp [runVector_eq, transform8_eq_ofFn, Cmd.run, Cmd.ofOperands]) rfl
  | hex p => exact answersAs_checked (length_of_wellFormed hw rfl) rfl rfl

/-! ### Malformed frames (R181, R182) -/

theorem length_of_illFormed {i : Instr} (he : i.encodable = true) (hw : i.wellFormed = false) :
    ∃ n, i.format.requiredLen = some n ∧ i.payload.length ≠ n := by
  cases hn : i.format.requiredLen with
  | none => simp [Instr.wellFormed, he, hn] at hw
  | some n => exact ⟨n, rfl, by simpa [Instr.wellFormed, he, hn] using hw⟩

/-- A command with a length its format does not allow raises the error of its opcode. -/
theorem exec_illFormed {i : Instr} (s : State) (he : i.encodable = true) (hw : i.wellFormed = false) :
    exec i s = .next (raise (malformedError i.opcode) s) := by
  obtain ⟨n, hn, hl⟩ := length_of_illFormed he hw
  cases i with
  | update p => cases hn
  | init p | final p | xform p | xform8 p | trn p | batch8 p | hex p =>
    cases hn
    exact if_pos hl

theorem malformedError_of_reserved {opc : Byte} {p : List Byte} (h : ofOpcode opc p = none) :
    malformedError opc = .illegalCommand := by
  have h0 : ofOpcode opc [] = none := (ofOpcode_eq_none_iff opc []).2 ((ofOpcode_eq_none_iff opc p).1 h)
  simp [malformedError, h0]

theorem malformedError_code (opc : Byte) :
    (malformedError opc).code = 0x02 ∨ (malformedError opc).code = 0x03 ∨ (malformedError opc).code = 0x04 := by
  unfold malformedError
  split_ifs
  · exact .inr (.inl rfl)
  · exact .inl rfl
  · exact .inr (.inr rfl)

/-- An error response is its status and three zero bytes (R182). -/
theorem responseBytes_error (e : Error) : responseBytes e.code [] = [e.code, 0, 0, 0] := by
  cases e <;> rfl

/-! ### The step at a complete frame -/

/-- A step at a complete frame runs the typed operands' command behind the frame, or raises the malformed frame's error (R74, R181). -/
theorem step_frame_cases {s : State} {opc : Byte} {payload rest : List Byte} (hp : s.resetPin = false)
    (hl : payload.length ≤ Config.lenMax) (hin : s.input = frameBytes opc payload ++ rest) :
    (∃ i, i.opcode = opc ∧ i.wellFormed = true ∧ Cmd.ofFrame opc payload = Cmd.ofOperands i ∧
      step s = exec i { s with input := rest }) ∨
    (Cmd.ofFrame opc payload = .malformed opc payload.length ∧
      step s = .next (raise (malformedError opc) { s with input := rest })) := by
  cases hi : ofOpcode opc payload with
  | none =>
    rw [step_of_reserved hp (hin ▸ decode_frame_reserved rest hl hi), malformedError_of_reserved hi]
    exact .inr ⟨by rw [Cmd.ofFrame, hi], rfl⟩
  | some i =>
    rw [step_of_command hp (hin ▸ decode_frame_command rest hl hi), Cmd.ofFrame, hi]
    obtain ⟨rfl, rfl⟩ := ofOpcode_some hi
    cases hw : i.wellFormed with
    | true => exact .inl ⟨i, rfl, hw, if_pos hw, rfl⟩
    | false =>
      exact .inr ⟨if_neg (by simp [hw]), exec_illFormed _ (decide_eq_true hl) hw⟩

/-- Settles O42: the command of a frame is well formed and runs as its typed form, or is malformed and only raises its error; the step
keeps the invariant, so `BUFLEN` counts the buffered bytes. -/
theorem stepMatchesTypedView : Obligations.StepMatchesTypedView := by
  unfold Obligations.StepMatchesTypedView
  intro s opc payload rest hi hp hl hin
  obtain ⟨i, -, hw, hcmd, hstep⟩ | ⟨hcmd, hstep⟩ := step_frame_cases hp hl hin
  · obtain ⟨t, ht, hv, hctx⟩ := exec_answersAs (s := { s with input := rest }) hi hw
    have hinv : t.Inv := exec_keeps_inv (s := { s with input := rest }) hi ht
    rw [hstep, hcmd]
    exact ⟨t, ht, congrArg Visible.input hv, (congrArg Visible.resetPin hv).trans hp,
      congrArg Visible.output hv, hctx, (inv_buffered_length hinv).symm⟩
  · rw [hcmd]
    exact ⟨_, hstep, rfl, hp, rfl, rfl, (inv_buffered_length hi).symm⟩

/-- Settles O41: a well-formed command answers OK with its opcode's number of bytes; a malformed frame answers one of three errors. -/
theorem oneResponsePerFrame : Obligations.OneResponsePerFrame := by
  unfold Obligations.OneResponsePerFrame
  intro s opc payload rest hi hp hl hin
  obtain ⟨i, rfl, hw, -, hstep⟩ | ⟨-, hstep⟩ := step_frame_cases hp hl hin
  · obtain ⟨t, ht, hv, -⟩ := exec_answersAs (s := { s with input := rest }) hi hw
    obtain ⟨bytes, hok, hlen⟩ := run_ofOperands_ok i s.ctx.typed
    refine ⟨t, okCode, bytes, hstep.trans ht, congrArg Visible.input hv, ?_, .inl ⟨rfl, hlen⟩⟩
    rw [List.append_assoc, show t.output = _ from congrArg Visible.output hv, hok]
    rfl
  · refine ⟨_, (malformedError opc).code, [], hstep, rfl, ?_, .inr ⟨malformedError_code opc, rfl, ?_⟩⟩
    · rw [List.append_nil]
      rfl
    · rw [← responseBytes_error]
      rfl

end Sys2Proof.Proofs
end

section
/-! PROOFS, family 40_scalar_transform: the word functions on their bits (R88 to R92). -/

namespace Sys2Proof.Proofs

open Sys2Proof Sys2Proof.Machine

/-! ### Shift and rotation (R88) -/

theorem shr_getLsbD (n i : Nat) (x : Word) : (shr n x).getLsbD i = x.getLsbD (i + n) := by
  rw [shr, BitVec.getLsbD_ushiftRight, Nat.add_comm]

/-- A bit of a rotation is read `n` places up, and past bit 31 from the bottom again. -/
theorem rotr_getLsbD {n i : Nat} (x : Word) (hn : n ≤ 31) (hi : i < 32) :
    (rotr n x).getLsbD i = x.getLsbD ((i + n) % 32) := by
  rw [rotr, BitVec.getLsbD_rotateRight, Nat.mod_eq_of_lt (show n < 32 by omega)]
  by_cases hlow : i < 32 - n
  · rw [decide_eq_true hlow, cond_true, show (i + n) % 32 = n + i by omega]
  · rw [decide_eq_false hlow, cond_false, decide_eq_true hi, Bool.true_and, show (i + n) % 32 = i - (32 - n) by omega]

/-- Settles O2: a bit at or above 32 of a word is 0, so a shift has zeros where it reads past bit 31; a rotation reads around. -/
theorem rotateAndShiftBits : Obligations.RotateAndShiftBits := by
  unfold Obligations.RotateAndShiftBits
  refine ⟨fun n i x _ => ?_, fun n i x _ hn hi => rotr_getLsbD x hn hi⟩
  rw [shr_getLsbD]
  split
  · rfl
  · exact BitVec.getLsbD_of_ge x (i + n) (by omega)

/-! ### Choice and majority (R89, R90) -/

theorem ch_getLsbD (x y z : Word) {i : Nat} (hi : i < 32) :
    (ch x y z).getLsbD i = if x.getLsbD i then y.getLsbD i else z.getLsbD i := by
  simp only [ch, BitVec.getLsbD_xor, BitVec.getLsbD_and, BitVec.getLsbD_not, decide_eq_true hi, Bool.true_and]
  cases x.getLsbD i with
  | true => simp
  | false => simp

theorem maj_getLsbD (x y z : Word) (i : Nat) :
    (maj x y z).getLsbD i =
      decide (2 ≤ (x.getLsbD i).toNat + (y.getLsbD i).toNat + (z.getLsbD i).toNat) := by
  simp only [maj, BitVec.getLsbD_xor, BitVec.getLsbD_and]
  generalize x.getLsbD i = a, y.getLsbD i = b, z.getLsbD i = c
  revert a b c
  decide

theorem ones_and (x : Word) : 0xffffffff#32 &&& x = x := BitVec.allOnes_and

theorem ch_ones (y z : Word) : ch 0xffffffff y z = y := by
  simp [ch, ones_and]

theorem ch_zero (y z : Word) : ch 0 y z = z := by
  simp [ch, ones_and]

theorem ch_self (x y : Word) : ch x y y = y :=
  BitVec.eq_of_getLsbD_eq fun i hi => by rw [ch_getLsbD _ _ _ hi, ite_self]

theorem maj_self (x z : Word) : maj x x z = x := by
  simp [maj]

theorem maj_comm_left (x y z : Word) : maj x y z = maj y x z := by
  rw [maj, maj, BitVec.and_comm x y, BitVec.xor_assoc, BitVec.xor_assoc, BitVec.xor_comm (x &&& z)]

theorem maj_comm_right (x y z : Word) : maj x y z = maj x z y := by
  rw [maj, maj, BitVec.and_comm y z, BitVec.xor_comm (x &&& y)]

theorem maj_ones_zero (z : Word) : maj 0xffffffff 0 z = z := by
  simp [maj, ones_and]

/-- Settles O3: bit by bit choice is selection and majority is a count of ones; the corner cases are identities of the formulas. -/
theorem choiceAndMajority : Obligations.ChoiceAndMajority := by
  unfold Obligations.ChoiceAndMajority
  exact ⟨fun _ _ _ => rfl, fun x y z _ hi => ch_getLsbD x y z hi, fun y z => ⟨ch_ones y z, ch_zero y z⟩, ch_self,
    fun _ _ _ => rfl, fun x y z i _ => maj_getLsbD x y z i,
    fun x z => ⟨maj_self x z, maj_ones_zero z, maj_self 0 z⟩,
    fun x y z => ⟨maj_comm_left x y z, maj_comm_right x y z⟩⟩

/-! ### The mixing functions (R91, R92) -/

/-- Three rotations combined, as `BSIG0` and `BSIG1` combine them. -/
theorem xor_rotr_getLsbD {k m n i : Nat} (x : Word) (hk : k ≤ 31) (hm : m ≤ 31) (hn : n ≤ 31) (hi : i < 32) :
    (rotr k x ^^^ rotr m x ^^^ rotr n x).getLsbD i =
      (x.getLsbD ((i + k) % 32) ^^ x.getLsbD ((i + m) % 32) ^^ x.getLsbD ((i + n) % 32)) := by
  rw [BitVec.getLsbD_xor, BitVec.getLsbD_xor, rotr_getLsbD x hk hi, rotr_getLsbD x hm hi, rotr_getLsbD x hn hi]

/-- Two rotations and a shift combined, as `SSIG0` and `SSIG1` combine them. -/
theorem xor_rotr_shr_getLsbD {k m i : Nat} (n : Nat) (x : Word) (hk : k ≤ 31) (hm : m ≤ 31) (hi : i < 32) :
    (rotr k x ^^^ rotr m x ^^^ shr n x).getLsbD i =
      (x.getLsbD ((i + k) % 32) ^^ x.getLsbD ((i + m) % 32) ^^ x.getLsbD (i + n)) := by
  rw [BitVec.getLsbD_xor, BitVec.getLsbD_xor, rotr_getLsbD x hk hi, rotr_getLsbD x hm hi, shr_getLsbD]

/-- Settles O4: each mixing function is the exclusive or of its rotations and shift, bit by bit. -/
theorem mixingFunctionBits : Obligations.MixingFunctionBits := by
  unfold Obligations.MixingFunctionBits
  intro x i hi
  exact ⟨xor_rotr_getLsbD x (by decide) (by decide) (by decide) hi,
    xor_rotr_getLsbD x (by decide) (by decide) (by decide) hi,
    xor_rotr_shr_getLsbD 3 x (by decide) (by decide) hi, xor_rotr_shr_getLsbD 10 x (by decide) (by decide) hi⟩

end Sys2Proof.Proofs
end

section
/-! PROOFS, family 40_scalar_transform: the message schedule, the rounds and the chaining over blocks (R93 to R105). -/

namespace Sys2Proof.Proofs

open Sys2Proof Sys2Proof.Machine Sys2Proof.Laws

/-! ### The message schedule (R94, R96, R97) -/

theorem sched_eq_getElem? (u : ScalarUnit) (t : Nat) : u.sched t = u.w[t]?.getD 0 := by
  simp [ScalarUnit.sched, Vector.getD, Array.getD_eq_getD_getElem?]

theorem sched_eq_getElem (u : ScalarUnit) {t : Nat} (h : t < 64) : u.sched t = u.w[t] := by
  rw [sched_eq_getElem?, Vector.getElem?_eq_getElem h, Option.getD_some]

/-- R97's sum for word `t`, on the words of a schedule. -/
def schedSum (s : Nat → Word) (t : Nat) : Word :=
  ssig1 (s (t - 2)) + s (t - 7) + ssig0 (s (t - 15)) + s (t - 16)

theorem schedStep_sched_self (u : ScalarUnit) {t : Nat} (ht : t < 64) :
    (u.schedStep t).sched t = schedSum u.sched t := by
  rw [sched_eq_getElem _ ht]
  exact Vector.getElem_setIfInBounds_self ht

theorem schedStep_sched_ne (u : ScalarUnit) {t i : Nat} (h : i ≠ t) : (u.schedStep t).sched i = u.sched i := by
  rw [sched_eq_getElem?, sched_eq_getElem?, ScalarUnit.schedStep, Vector.getElem?_setIfInBounds_ne h.symm]

/-- No later schedule step writes a word again. -/
theorem expand_sched_stable {n i : Nat} (u : ScalarUnit) (hi : i < 16 + n) (k : Nat) :
    (ScalarUnit.expand (n + k) u).sched i = (ScalarUnit.expand n u).sched i := by
  induction k with
  | zero => rfl
  | succ k ih =>
    have hne : i ≠ 16 + (n + k) := by omega
    exact (schedStep_sched_ne _ hne).trans ih

/-- In the finished schedule every word from 16 on is the sum of its four earlier words. -/
theorem expand_sched_sum (u : ScalarUnit) {t : Nat} (hlow : 16 ≤ t) (ht : t < 64) :
    (ScalarUnit.expand 48 u).sched t = schedSum (ScalarUnit.expand 48 u).sched t := by
  obtain ⟨n, rfl⟩ := Nat.exists_eq_add_of_le hlow
  have stable {m i : Nat} (hm : m ≤ 48) (hi : i < 16 + m) :
      (ScalarUnit.expand 48 u).sched i = (ScalarUnit.expand m u).sched i := by
    simpa [Nat.add_sub_cancel' hm] using expand_sched_stable u hi (48 - m)
  calc (ScalarUnit.expand 48 u).sched (16 + n)
    _ = (ScalarUnit.expand (n + 1) u).sched (16 + n) := stable (by omega) (by omega)
    _ = schedSum (ScalarUnit.expand n u).sched (16 + n) := schedStep_sched_self _ ht
    _ = schedSum (ScalarUnit.expand 48 u).sched (16 + n) := by
      simp only [schedSum]
      rw [stable (m := n), stable (m := n), stable (m := n), stable (m := n)] <;> omega

theorem byteAt_block (b : Block) {i : Nat} (hi : i < 64) : byteAt b.toList i = b[i] := by
  simp [byteAt, hi]

theorem blockWords_getElem (b : Block) {j : Nat} (hj : j < 16) :
    (blockWords b)[j] = be32 b[4 * j] b[4 * j + 1] b[4 * j + 2] b[4 * j + 3] := by
  rw [blockWords, Vector.getElem_ofFn, wordAt, byteAt_block, byteAt_block, byteAt_block, byteAt_block]

theorem loadBlock_sched (u : ScalarUnit) (b : Block) {j : Nat} (hj : j < 16) :
    (u.loadBlock b).sched j = (blockWords b)[j] := by
  rw [sched_eq_getElem?, loadBlock_w u b hj, Vector.getElem?_eq_getElem hj, Option.getD_some]

/-- Settles O6: no step writes a word again, so the first sixteen words stay the block's, and each later word is still the sum of the
words it was computed from. -/
theorem scheduleWords : Obligations.ScheduleWords := by
  unfold Obligations.ScheduleWords
  refine fun u b => ⟨fun j hj => ?_, fun t ht hlow => ?_⟩
  · rw [← sched_eq_getElem _ (by omega), ← blockWords_getElem b hj, ← loadBlock_sched u b hj]
    exact expand_sched_stable (n := 0) (u.loadBlock b) hj 48
  · simp only [← sched_eq_getElem]
    exact expand_sched_sum (u.loadBlock b) hlow ht

/-! ### The rounds (R95, R98 to R100) -/

/-- Settles O7: the record a round answers, field by field. -/
theorem roundUpdatesTheChain : Obligations.RoundUpdatesTheChain := by
  unfold Obligations.RoundUpdatesTheChain
  exact fun u => ⟨rfl, rfl, rfl, rfl, rfl, rfl, rfl, rfl, rfl, rfl, rfl⟩

/-- The round index counts the rounds, modulo 64 (R16). -/
theorem rounds_t (n : Nat) (u : ScalarUnit) : (ScalarUnit.rounds n u).t = u.t + BitVec.ofNat 6 n := by
  induction n with
  | zero => exact (BitVec.add_zero u.t).symm
  | succ n ih =>
    calc (ScalarUnit.rounds (n + 1) u).t
      _ = (ScalarUnit.rounds n u).t + 1 := rfl
      _ = u.t + BitVec.ofNat 6 (n + 1) := by rw [ih, BitVec.ofNat_add, ← BitVec.add_assoc]; rfl

/-- Settles O8: the round index starts at 0 and counts the rounds below 64; the rest is how loading, run and result are built. -/
theorem transformOrder : Obligations.TransformOrder := by
  unfold Obligations.TransformOrder
  rintro u x st b rfl
  refine ⟨⟨rfl, rfl, rfl, rfl, rfl, rfl, rfl, rfl⟩, fun t ht => ⟨?_, rfl⟩, rfl, rfl⟩
  have hstart : (((u.loadBlock b).expand 48).loadState st).t = 0#6 := rfl
  rw [rounds_t, hstart, BitVec.zero_add, BitVec.toNat_ofNat, Nat.mod_eq_of_lt ht]

/-! ### Chaining over blocks (R105) -/

/-- Settles O10: a non-empty sequence of whole blocks is its first block and the rest. -/
theorem foldRecursion : Obligations.FoldRecursion := by
  unfold Obligations.FoldRecursion
  refine ⟨fold_nil, fun st bytes hne hmod => ?_⟩
  have hpos : 0 < bytes.length := List.length_pos_iff.mpr hne
  have hfirst : (bytes.take 64).length = 64 := by rw [List.length_take]; omega
  calc fold st bytes
    _ = fold st (bytes.take 64 ++ bytes.drop 64) := by rw [List.take_append_drop]
    _ = fold (transform st (blockAt (bytes.take 64) 0)) (bytes.drop 64) := fold_block_append st _ hfirst

end Sys2Proof.Proofs
end

section
/-! PROOFS, family 40_scalar_transform: the XFORM command (R103). -/

namespace Sys2Proof.Proofs

open Sys2Proof Sys2Proof.Machine Sys2Proof.Laws

/-! ### Operands in a part of a payload (R72) -/

theorem byteAt_take (p : List Byte) {n i : Nat} (hi : i < n) : byteAt (p.take n) i = byteAt p i := by
  simp [byteAt, List.getElem?_take_of_lt hi]

theorem byteAt_drop (p : List Byte) (n i : Nat) : byteAt (p.drop n) i = byteAt p (n + i) := by
  simp [byteAt, List.getElem?_drop]

theorem wordAt_take (p : List Byte) {n off : Nat} (h : off + 4 ≤ n) : wordAt (p.take n) off = wordAt p off := by
  simp only [wordAt]
  rw [byteAt_take, byteAt_take, byteAt_take, byteAt_take] <;> omega

/-- A State inside the first `n` bytes does not read the bytes behind them. -/
theorem stateAt_take (p : List Byte) {n off : Nat} (h : off + 32 ≤ n) : stateAt (p.take n) off = stateAt p off := by
  ext1 j hj
  simp [stateAt, wordAt_take p (show off + 4 * j + 4 ≤ n by omega)]

theorem blockAt_drop (p : List Byte) (n off : Nat) : blockAt (p.drop n) off = blockAt p (n + off) := by
  ext1 k hk
  simp [blockAt, byteAt_drop, Nat.add_assoc]

/-! ### The command -/

/-- With 96 bytes XFORM answers the transform of its operands and drops the scalar unit's registers. -/
theorem exec_xform {p : List Byte} (hp : p.length = 96) (s : State) :
    exec (.xform p) s =
      .next (respondOk (encodeState (transform (stateAt p 0) (blockAt p 32))) (dropScalar s)) := by
  simp [exec, execXform, hp, runScalar_eq]

/-- A response OK with a State has the header `00 00 00 20` (R66). -/
theorem responseBytes_encodeState (st : HashState) :
    responseBytes okCode (encodeState st) = [0x00, 0, 0, 32] ++ encodeState st := by
  rw [responseBytes, encodeState_length]
  rfl

/-- Settles O26: with 96 bytes the response is that of the pure function and only the scalar unit is touched; with any other length
the error is raised. -/
theorem xformCommand : Obligations.XformCommand := by
  unfold Obligations.XformCommand
  refine fun p s => ⟨fun hp => ⟨_, exec_xform hp s, ?_, rfl, rfl, rfl, rfl, rfl⟩, fun hp => if_pos hp⟩
  rw [stateAt_take p (by omega), blockAt_drop, List.append_assoc, ← responseBytes_encodeState]
  rfl

end Sys2Proof.Proofs
end

section
/-! PROOFS, family 41_lane_transpose: the transpose and the packing by index (R111, R113, R116, R117), and the TRN command (R118). -/

namespace Sys2Proof.Proofs

open Sys2Proof Sys2Proof.Machine Sys2Proof.Laws

/-! ### The transpose and the packing (R111, R113, R116, R117) -/

@[simp] theorem transpose_transpose (m : Matrix) : transpose (transpose m) = m := by
  ext i hi j hj
  rw [transpose_getElem _ hi hj, transpose_getElem _ hj hi]

/-- Settles O11: the index mapping, and the mapping twice. -/
theorem transposeInvolution : Obligations.TransposeInvolution := by
  unfold Obligations.TransposeInvolution
  exact ⟨fun m _ _ hi hj => transpose_getElem m hi hj, transpose_transpose⟩

/-- Settles O12: packing and unpacking the States is one transpose each, packing the Blocks one for each half. -/
theorem packAndUnpack : Obligations.PackAndUnpack := by
  unfold Obligations.PackAndUnpack
  exact ⟨fun states _ _ hl hj => transpose_getElem states hj hl, fun vs _ _ hl hj => transpose_getElem vs hl hj,
    transpose_transpose, fun blocks _ _ ht hl => packBlocks_lane blocks ht hl⟩

/-! ### The bytes of a Matrix (R42, R43, R72) -/

theorem byteAt_eq_getElem {p : List Byte} {n : Nat} (h : n < p.length) : byteAt p n = p[n] := by
  simp [byteAt, h]

/-- In a sequence of encodings of `n` bytes each, byte `k` of encoding `i` stands at offset `n * i + k`. -/
theorem byteAt_flatMap {α : Type} {f : α → List Byte} {n k : Nat} (hf : ∀ x, (f x).length = n) (hk : k < n)
    (xs : List α) {i : Nat} (hi : i < xs.length) : byteAt (xs.flatMap f) (n * i + k) = byteAt (f xs[i]) k := by
  induction xs generalizing i with
  | nil => cases hi
  | cons x xs ih =>
    rw [List.flatMap_cons]
    cases i with
    | zero => simpa using byteAt_append (xs.flatMap f) ((hf x).symm ▸ hk)
    | succ i =>
      have hoff : n * (i + 1) + k = n + (n * i + k) := by rw [Nat.mul_succ]; omega
      rw [hoff, ← byteAt_drop, List.drop_left' (hf x)]
      exact ih (Nat.lt_of_succ_lt_succ hi)

theorem byteAt_encodeState (st : HashState) {j k : Nat} (hj : j < 8) (hk : k < 4) :
    byteAt (encodeState st) (4 * j + k) = byteAt (toBe32 st[j]) k := by
  rw [encodeState, byteAt_flatMap toBe32_length hk _ (by simpa using hj), Vector.getElem_toList]

theorem byteAt_encodeMatrix (m : Matrix) {i j k : Nat} (hi : i < 8) (hj : j < 8) (hk : k < 4) :
    byteAt (encodeMatrix m) (4 * (8 * i + j) + k) = byteAt (toBe32 m[i][j]) k := by
  have hoff : 4 * (8 * i + j) + k = 32 * i + (4 * j + k) := by omega
  rw [encodeMatrix, hoff, byteAt_flatMap encodeState_length (by omega) _ (by simpa using hi), Vector.getElem_toList,
    byteAt_encodeState _ hj hk]

/-- The bytes of a word read from a byte sequence are the sequence's, in the same order. -/
theorem byteAt_toBe32_wordAt (p : List Byte) (off : Nat) {k : Nat} (hk : k < 4) :
    byteAt (toBe32 (wordAt p off)) k = byteAt p (off + k) := by
  rw [wordAt, toBe32_be32]
  interval_cases k <;> rfl

theorem matrixAt_getElem (p : List Byte) (off : Nat) {i j : Nat} (hi : i < 8) (hj : j < 8) :
    (matrixAt p off)[i][j] = wordAt p (off + 4 * (8 * i + j)) := by
  simp [matrixAt]

/-- Two sequences of 256 bytes are equal when the bytes of all 64 words of the Matrix layout are. -/
theorem eq_of_matrix_bytes {p q : List Byte} (hp : p.length = 256) (hq : q.length = 256)
    (h : ∀ i j k : Nat, i < 8 → j < 8 → k < 4 → byteAt p (4 * (8 * i + j) + k) = byteAt q (4 * (8 * i + j) + k)) :
    p = q := by
  refine List.ext_getElem (hp.trans hq.symm) fun n hnp hnq => ?_
  have hn : 4 * (8 * (n / 32) + n / 4 % 8) + n % 4 = n := by omega
  have hbyte := h (n / 32) (n / 4 % 8) (n % 4) (by omega) (by omega) (by omega)
  rwa [hn, byteAt_eq_getElem hnp, byteAt_eq_getElem hnq] at hbyte

/-! ### The command (R118) -/

/-- The bytes TRN answers for a payload of 256 bytes. -/
def trnBytes (p : List Byte) : List Byte := encodeMatrix (transpose (matrixAt p 0))

@[simp] theorem trnBytes_length (p : List Byte) : (trnBytes p).length = 256 := encodeMatrix_length _

/-- Every byte of the response is the payload's byte of the transposed place. -/
theorem byteAt_trnBytes (p : List Byte) {i j k : Nat} (hi : i < 8) (hj : j < 8) (hk : k < 4) :
    byteAt (trnBytes p) (4 * (8 * i + j) + k) = byteAt p (4 * (8 * j + i) + k) := by
  rw [trnBytes, byteAt_encodeMatrix _ hi hj hk, transpose_getElem _ hi hj, matrixAt_getElem _ _ hj hi,
    byteAt_toBe32_wordAt _ _ hk, Nat.zero_add]

/-- The place transposed twice is the first place (R113). -/
theorem trnBytes_trnBytes {p : List Byte} (hp : p.length = 256) : trnBytes (trnBytes p) = p :=
  eq_of_matrix_bytes (trnBytes_length _) hp fun _ _ _ hi hj hk => by
    rw [byteAt_trnBytes _ hi hj hk, byteAt_trnBytes _ hj hi hk]

/-- With 256 bytes TRN answers the transposed bytes and drops the transposer's matrix. -/
theorem exec_trn {p : List Byte} (hp : p.length = 256) (s : State) :
    exec (.trn p) s = .next (respondOk (trnBytes p) (dropMatrix s)) := by
  simp [exec, execTrn, hp, runTranspose_eq, trnBytes, dropMatrix]

/-- A response OK with 256 bytes has the header `00 00 01 00` (R66). -/
theorem respondOk_output_of_length {bytes : List Byte} (h : bytes.length = 256) (s : State) :
    (respondOk bytes s).output = s.output ++ [0x00, 0, 1, 0] ++ bytes := by
  rw [respondOk_output, responseBytes, h, List.append_assoc]
  rfl

/-- Settles O27: with 256 bytes the response has every byte in its transposed place and only the transposer is touched; with any other
length the error is raised. -/
theorem trnCommand : Obligations.TrnCommand := by
  unfold Obligations.TrnCommand
  exact fun p s => ⟨fun hp => ⟨_, trnBytes p, exec_trn hp s, respondOk_output_of_length (trnBytes_length p) _,
    trnBytes_length p, fun _ _ _ => byteAt_trnBytes p, rfl, rfl, rfl, rfl, rfl⟩, fun hp => if_pos hp⟩

/-- Settles O28: the second response is the payload, because transposing the places twice moves nothing. -/
theorem trnTwiceReturnsThePayload : Obligations.TrnTwiceReturnsThePayload := by
  unfold Obligations.TrnTwiceReturnsThePayload
  intro p s s' hp
  have hsecond := exec_trn (trnBytes_length p) s'
  rw [trnBytes_trnBytes hp] at hsecond
  exact ⟨_, _, _, exec_trn hp s, respondOk_output_of_length (trnBytes_length p) _, hsecond,
    respondOk_output_of_length hp _⟩

end Sys2Proof.Proofs
end

section
/-! PROOFS, family 42_transform8: the vector operations and the 8-way unit lane by lane (R121 to R123), and the commands XFORM8 and
BATCH8 (R134 to R136). -/

namespace Sys2Proof.Proofs

open Sys2Proof Sys2Proof.Machine Sys2Proof.Laws

/-! ### The unit and its vector operations (R121 to R123) -/

/-- Settles O14: the unit answers what the unit of zero registers answers, and that is the scalar transform in every lane. -/
theorem eightWayEqualsScalar : Obligations.EightWayEqualsScalar := by
  unfold Obligations.EightWayEqualsScalar
  intro v states blocks i hi
  rw [unpackStates_run]
  exact transform8_lane ⟨i, hi⟩ states blocks

section
variable (x y : VReg) {l : Nat} (hl : l < 8)

theorem vand_lane : (vand x y)[l] = (x[l] &&& y[l]) := lanes2_lane _ x y hl

theorem vor_lane : (vor x y)[l] = (x[l] ||| y[l]) := lanes2_lane _ x y hl

theorem vxor_lane : (vxor x y)[l] = (x[l] ^^^ y[l]) := lanes2_lane _ x y hl

theorem vnot_lane : (vnot x)[l] = ~~~x[l] := lanes1_lane _ x hl

theorem vrotr_lane (n : Nat) : (vrotr n x)[l] = rotr n x[l] := lanes1_lane _ x hl

theorem vshr_lane (n : Nat) : (vshr n x)[l] = shr n x[l] := lanes1_lane _ x hl

end

/-- Settles O13: one lane lemma for each operation and each function. -/
theorem vectorOperationsAreLanewise : Obligations.VectorOperationsAreLanewise := by
  unfold Obligations.VectorOperationsAreLanewise
  exact fun x y z _ hl => ⟨vand_lane x y hl, vor_lane x y hl, vxor_lane x y hl, vnot_lane x hl,
    fun n => ⟨vrotr_lane x hl n, vshr_lane x hl n⟩, vadd_lane x y hl, vbcast_lane hl, vch_lane x y z hl,
    vmaj_lane x y z hl, vbsig0_lane x hl, vbsig1_lane x hl, vssig0_lane x hl, vssig1_lane x hl⟩

/-! ### One lane of a payload and of a response (R67, R72) -/

/-- A word inside a slice of a payload is the payload's word at that place. -/
theorem wordAt_drop (p : List Byte) (n off : Nat) : wordAt (p.drop n) off = wordAt p (n + off) := by
  simp only [wordAt, byteAt_drop, Nat.add_assoc]

theorem stateAt_drop (p : List Byte) (n off : Nat) : stateAt (p.drop n) off = stateAt p (n + off) := by
  ext1 j hj
  simp [stateAt, wordAt_drop, Nat.add_assoc]

theorem blockAt_take (p : List Byte) {n off : Nat} (h : off + 64 ≤ n) : blockAt (p.take n) off = blockAt p off := by
  ext1 k hk
  simp [blockAt, byteAt_take p (show off + k < n by omega)]

/-- The 32 bytes cut out at `off` hold the State at `off`. -/
theorem stateAt_slice (p : List Byte) (off : Nat) : stateAt ((p.drop off).take 32) 0 = stateAt p off := by
  rw [stateAt_take _ (Nat.le_refl _), stateAt_drop, Nat.add_zero]

/-- The 64 bytes cut out at `off` hold the Block at `off`. -/
theorem blockAt_slice (p : List Byte) (off : Nat) : blockAt ((p.drop off).take 64) 0 = blockAt p off := by
  rw [blockAt_take _ (Nat.le_refl _), blockAt_drop, Nat.add_zero]

theorem statesAt_getElem (p : List Byte) (off : Nat) {l : Nat} (hl : l < 8) :
    (statesAt p off)[l] = stateAt p (off + 32 * l) :=
  Vector.getElem_ofFn hl

theorem blocksAt_getElem (p : List Byte) (off : Nat) {l : Nat} (hl : l < 8) :
    (blocksAt p off)[l] = blockAt p (off + 64 * l) :=
  Vector.getElem_ofFn hl

/-- In a sequence of encodings of `n` bytes each, encoding `i` is the `n` bytes at offset `n * i`. -/
theorem take_drop_flatMap {α : Type} {f : α → List Byte} {n : Nat} (hf : ∀ x, (f x).length = n) (xs : List α) {i : Nat}
    (hi : i < xs.length) : ((xs.flatMap f).drop (n * i)).take n = f xs[i] := by
  induction xs generalizing i with
  | nil => cases hi
  | cons x xs ih =>
    rw [List.flatMap_cons]
    cases i with
    | zero => exact List.take_left' (hf x)
    | succ i =>
      rw [Nat.mul_succ, Nat.add_comm, ← List.drop_drop, List.drop_left' (hf x)]
      exact ih (Nat.lt_of_succ_lt_succ hi)

theorem encodeStates_lane (sts : Vector HashState 8) {l : Nat} (hl : l < 8) :
    ((encodeStates sts).drop (32 * l)).take 32 = encodeState sts[l] := by
  rw [encodeStates, take_drop_flatMap encodeState_length _ (by simpa using hl), Vector.getElem_toList]

/-- The 32 bytes of lane `l` in the response are the encoded transform of that lane's State and Block. -/
theorem encodeStates_transform8_lane (sts : Vector HashState 8) (bs : Vector Block 8) {l : Nat} (hl : l < 8) :
    ((encodeStates (transform8 sts bs)).drop (32 * l)).take 32 = encodeState (transform sts[l] bs[l]) :=
  (encodeStates_lane _ hl).trans (congrArg encodeState (transform8_lane ⟨l, hl⟩ sts bs))

/-! ### The commands (R134 to R136) -/

/-- With 768 bytes XFORM8 answers the 8-way transform of its operands and drops the registers of the two units it used. -/
theorem exec_xform8 {p : List Byte} (hp : p.length = 768) (s : State) :
    exec (.xform8 p) s = .next (respondOk (encodeStates (transform8 (statesAt p 0) (blocksAt p 256)))
      (dropMatrix (dropVector s))) := by
  simp [exec, execXform8, hp, runVector_eq]

/-- The bytes BATCH8 answers for a payload of 512 bytes. -/
def batch8Bytes (p : List Byte) : List Byte := encodeStates (transform8 (Vector.replicate 8 IV) (blocksAt p 0))

@[simp] theorem batch8Bytes_length (p : List Byte) : (batch8Bytes p).length = 256 := encodeStates_length _

/-- Lane `l` of the response is one transform, from `IV`, of the payload's 64 bytes for that lane. -/
theorem batch8Bytes_lane (p : List Byte) {l : Nat} (hl : l < 8) :
    ((batch8Bytes p).drop (32 * l)).take 32 =
      encodeState (transform IV (blockAt ((p.drop (64 * l)).take 64) 0)) := by
  rw [batch8Bytes, encodeStates_transform8_lane _ _ hl, Vector.getElem_replicate, blocksAt_getElem _ _ hl, blockAt_slice,
    Nat.zero_add]

/-- With 512 bytes BATCH8 answers those bytes and drops the registers of the two units it used. -/
theorem exec_batch8 {p : List Byte} (hp : p.length = 512) (s : State) :
    exec (.batch8 p) s = .next (respondOk (batch8Bytes p) (dropMatrix (dropVector s))) := by
  simp [exec, execBatch8, hp, runVector_eq, batch8Bytes]

/-- Settles O29: with 768 bytes each lane is that of the 8-way transform and only the 8-way unit and the transposer are touched; with
any other length the error is raised. -/
theorem xform8Command : Obligations.Xform8Command := by
  unfold Obligations.Xform8Command
  refine fun p s => ⟨fun hp => ⟨_, _, exec_xform8 hp s, respondOk_output_of_length (encodeStates_length _) _,
    encodeStates_length _, fun l hl => ?_, rfl, rfl, rfl, rfl⟩, fun hp => if_pos hp⟩
  rw [encodeStates_transform8_lane _ _ hl, statesAt_getElem _ _ hl, blocksAt_getElem _ _ hl, stateAt_slice, blockAt_slice,
    Nat.zero_add]

/-- Settles O30: with 512 bytes each lane is one transform from `IV` and only the 8-way unit and the transposer are touched; with any
other length the error is raised. -/
theorem batch8Command : Obligations.Batch8Command := by
  unfold Obligations.Batch8Command
  exact fun p s => ⟨fun hp => ⟨_, _, exec_batch8 hp s, respondOk_output_of_length (batch8Bytes_length p) _,
    batch8Bytes_length p, fun _ hl => batch8Bytes_lane p hl, rfl, rfl, rfl, rfl⟩, fun hp => if_pos hp⟩

/-- A message whose padded form is one block has the transform of that block from `IV` as its digest (R105, R162). -/
theorem sha256_of_one_block {m : List Byte} (h : (padMessage m).length = 64) :
    sha256 m = encodeState (transform IV (blockAt (padMessage m) 0)) := by
  rw [sha256, fold_block IV h]

/-- Settles O31: the lane's 64 bytes are the whole padded message, so the lane's one transform is its digest. -/
theorem batch8OfPaddedMessage : Obligations.Batch8OfPaddedMessage := by
  unfold Obligations.Batch8OfPaddedMessage
  intro p m s l hp hl _ hpad
  have hblock : (padMessage m).length = 64 := by
    rw [← hpad, List.length_take, List.length_drop]
    omega
  refine ⟨_, _, exec_batch8 hp s, respondOk_output_of_length (batch8Bytes_length p) _, ?_⟩
  rw [batch8Bytes_lane p hl, hpad, sha256_of_one_block hblock]

end Sys2Proof.Proofs
end

section
/-! PROOFS, family 43_streaming_hasher: absorbing bytes and UPDATE (R144 to R150). -/

namespace Sys2Proof.Proofs

open Sys2Proof Sys2Proof.Machine Sys2Proof.Laws

/-! ### Absorbing one byte (R146) -/

/-- One more buffered byte is one more cell, at address `BUFLEN`. -/
theorem cells_buffered_push {c : Context} (hc : c.Inv) (x : Byte) :
    cells 0 (c.buffered ++ [x]) = c.mem ++ [(c.bufLen.toNat, x)] := by
  rw [cells_append, ← Laws.inv_mem hc, Nat.zero_add, inv_buffered_length hc]
  rfl

/-- Settles O17: with room in the block the byte is one more cell of the buffer; the 64th byte runs the transform. -/
theorem absorbOneByte : Obligations.AbsorbOneByte := by
  unfold Obligations.AbsorbOneByte
  intro s x hi
  refine ⟨fun hn => ?_, fun hn => ⟨_, absorb_full x hi hn, rfl, rfl, rfl, rfl, rfl, rfl, rfl, rfl, rfl⟩⟩
  rw [absorb_room x hi hn, cells_buffered_push hi]

/-! ### What UPDATE leaves (R145, R147) -/

/-- UPDATE answers OK, leaves the context its typed form says, and touches nothing else but the scalar unit. -/
theorem exec_update_typed (data : List Byte) {s : State} (hi : s.Inv) :
    ∃ t, exec (.update data) s = .next t ∧ t.Inv ∧ t.ctx.typed = ((Cmd.update data).run s.ctx.typed).2 ∧
      t.output = s.output ++ [0x00, 0, 0, 0] ∧ t.input = s.input ∧ t.resetPin = s.resetPin ∧
      t.vector = s.vector ∧ t.tm = s.tm := by
  obtain ⟨c, u, n, habs, hc⟩ := absorbAll_typed data hi
  have hinv : State.Inv { s with ctx := c, scalar := u, draws := n } := absorbAll_keeps_inv hi habs
  have hexec : exec (.update data) s = .next (respondOk [] { s with ctx := c, scalar := u, draws := n }) := by
    rw [exec, execUpdate, habs]
  exact ⟨_, hexec, hinv, hc, rfl, rfl, rfl, rfl, rfl⟩

/-- Bytes that fill no block go into the buffer, and no unit is used. -/
theorem absorbAll_within_block (xs : List Byte) {s : State} (hi : s.Inv)
    (hlen : s.ctx.bufLen.toNat + xs.length < 64) : ∃ c, absorbAll xs s = .ok { s with ctx := c } := by
  induction xs generalizing s with
  | nil => exact ⟨s.ctx, rfl⟩
  | cons x xs ih =>
    rw [List.length_cons] at hlen
    have habs := absorb_room x hi (by bv_omega)
    have hnext : (s.ctx.bufLen + 1).toNat = s.ctx.bufLen.toNat + 1 := by bv_omega
    obtain ⟨c, hall⟩ := ih (absorb_keeps_inv hi habs) (by simp only [hnext]; omega)
    exact ⟨c, by rw [absorbAll, habs]; exact hall⟩

/-- An UPDATE that fills no block keeps the registers of the scalar unit. -/
theorem exec_update_scalar {data : List Byte} {s t : State} (hi : s.Inv)
    (hlen : s.ctx.bufLen.toNat + data.length < 64) (h : exec (.update data) s = .next t) : t.scalar = s.scalar := by
  obtain ⟨u, hu, rfl⟩ := execUpdate_cases h
  obtain ⟨c, hall⟩ := absorbAll_within_block data hi hlen
  rw [hall] at hu
  cases hu
  rfl

/-- Settles O18: UPDATE leaves what its typed form says, the invariant gives `BUFLEN` and the addresses, and with `q = 0` no block is
filled. -/
theorem updateBlockwise : Obligations.UpdateBlockwise := by
  unfold Obligations.UpdateBlockwise
  rintro s data d q hi hd rfl
  obtain ⟨t, ht, hinv, htyped, hout, hin, hpin, hvec, htm⟩ := exec_update_typed data hi
  simp only [Cmd.run, typed_h, typed_buf, typed_bitLen, ← hd] at htyped
  have hh : t.ctx.h = fold s.ctx.h (d.take (64 * (d.length / 64))) := congrArg Hasher.h htyped
  have hbit : t.ctx.bitLen = s.ctx.bitLen + BitVec.ofNat 64 (512 * (d.length / 64)) := congrArg Hasher.bitLen htyped
  have hbuf : t.ctx.buffered = d.drop (64 * (d.length / 64)) := congrArg Hasher.buf htyped
  have hrest : t.ctx.buffered.length = d.length % 64 := by rw [hbuf, List.length_drop]; omega
  have hlen : t.ctx.bufLen.toNat = d.length % 64 := (inv_buffered_length hinv).symm.trans hrest
  have haddrs : t.ctx.mem.map Prod.fst = List.range (d.length % 64) := hlen ▸ hinv.2.2
  refine ⟨t, ht, hh, hbit, hlen, haddrs, hbuf, hout, hin, hpin, hvec, htm, fun hq => ⟨?_, ?_, ?_⟩⟩
  · simpa [hq, fold_nil] using hh
  · simpa [hq] using hbit
  · refine exec_update_scalar hi ?_ ht
    rw [← inv_buffered_length hi, ← List.length_append, ← hd]
    omega

/-- Settles O19: there is no byte to absorb. -/
theorem emptyUpdateChangesNothing : Obligations.EmptyUpdateChangesNothing := by
  unfold Obligations.EmptyUpdateChangesNothing
  exact fun _ => rfl

/-- Settles O21: the one byte fills the block, so `BITLEN` is raised by 512 from `2^64 - 512`. -/
theorem bitCounterWraps : Obligations.BitCounterWraps := by
  unfold Obligations.BitCounterWraps
  intro s x hi hlen hbits
  have hq : 1 = (s.ctx.buffered ++ [x]).length / 64 := by
    rw [List.length_append, inv_buffered_length hi, hlen, List.length_singleton]
    rfl
  obtain ⟨t, ht, -, hbit, -, -, -, hout, -⟩ := updateBlockwise s [x] _ 1 hi rfl hq
  exact ⟨t, ht, by rw [hbit]; bv_omega, hout⟩

/-! ### Two UPDATEs in a row (R149) -/

theorem pushByte_buf_lt {c : Hasher} (x : Byte) (hc : c.buf.length < 64) : (pushByte x c).buf.length < 64 := by
  unfold pushByte
  split
  · exact Nat.zero_lt_succ 63
  · rw [List.length_append, List.length_singleton]
    omega

/-- At the typed level, UPDATE of two parts one after the other is UPDATE of the whole. -/
theorem run_update_append (xs ys : List Byte) {c : Hasher} (hc : c.buf.length < 64) :
    (Cmd.update (xs ++ ys)).run c = (Cmd.update ys).run ((Cmd.update xs).run c).2 := by
  induction xs generalizing c with
  | nil => rw [run_update_nil hc, List.nil_append]
  | cons x xs ih => rw [List.cons_append, run_update_cons, run_update_cons, ih (pushByte_buf_lt x hc)]

theorem buffered_length_lt {c : Context} (hc : c.Inv) : c.buffered.length < 64 :=
  (inv_buffered_length hc).trans_lt hc.1

/-- The typed view tells apart any two contexts that meet the invariant. -/
theorem ctx_eq_of_typed {c c' : Context} (hc : c.Inv) (hc' : c'.Inv) (h : c.typed = c'.typed) : c = c' := by
  have hbuf : c.buffered = c'.buffered := congrArg Hasher.buf h
  have hmem : c.mem = c'.mem := by rw [Laws.inv_mem hc, Laws.inv_mem hc', hbuf]
  have hlen : c.bufLen = c'.bufLen := by
    rw [← BitVec.toNat_inj, ← inv_buffered_length hc, ← inv_buffered_length hc', hbuf]
  have hh : c.h = c'.h := congrArg Hasher.h h
  have hbit : c.bitLen = c'.bitLen := congrArg Hasher.bitLen h
  cases c
  cases c'
  simp only at hmem hlen hh hbit
  rw [hmem, hlen, hh, hbit]

/-- A pure command answers and keeps the context, in any state (R49). -/
theorem exec_pure_answers {i : Instr} (hp : isPure i = true) (s : State) :
    ∃ t, exec i s = .next t ∧ t.ctx = s.ctx := by
  obtain ⟨_, hall⟩ := exec_pure_appendsSameBytes hp
  obtain ⟨t, ht, -⟩ := hall s
  exact ⟨t, ht, exec_pure_ctx hp ht⟩

/-- Pure commands, and commands that end in a length error, all answer and leave the context. -/
theorem execAll_harmless (is : List Instr) (s : State) (hpure : ∀ i ∈ is, isPure i = true ∨ i.wellFormed = false)
    (henc : ∀ i ∈ is, i.encodable = true) : ∃ t, execAll is s = .next t ∧ t.ctx = s.ctx := by
  induction is generalizing s with
  | nil => exact ⟨s, rfl, rfl⟩
  | cons i is ih =>
    rw [List.forall_mem_cons] at hpure henc
    have hone : ∃ u, exec i s = .next u ∧ u.ctx = s.ctx := by
      rcases hpure.1 with hp | hw
      · exact exec_pure_answers hp s
      · exact ⟨_, exec_illFormed s henc.1 hw, rfl⟩
    obtain ⟨u, hu, huc⟩ := hone
    obtain ⟨t, ht, htc⟩ := ih u hpure.2 henc.2
    exact ⟨t, by rw [execAll, hu]; exact ht, htc.trans huc⟩

/-- Settles O20: the frames between keep the context, both ways leave the same typed context, and under the invariant that is the same
context. -/
theorem chunkingInvariance : Obligations.ChunkingInvariance := by
  unfold Obligations.ChunkingInvariance
  intro s x y between hi _ hpure henc
  obtain ⟨t1, h1, hi1, htyped1, -⟩ := exec_update_typed x hi
  obtain ⟨t2, h2, hctx2⟩ := execAll_harmless between t1 hpure henc
  have hi2 : t2.Inv := by rw [State.Inv, hctx2]; exact hi1
  obtain ⟨t3, h3, hi3, htyped3, -⟩ := exec_update_typed y hi2
  obtain ⟨t, h, hi', htyped, -⟩ := exec_update_typed (x ++ y) hi
  refine ⟨t1, t2, t3, t, h1, h2, h3, h, ctx_eq_of_typed hi3 hi' ?_⟩
  rw [htyped3, htyped, hctx2, htyped1, run_update_append x y (c := s.ctx.typed) (buffered_length_lt hi)]

end Sys2Proof.Proofs
end

section
/-! PROOFS, family 43_streaming_hasher: INIT, FINAL with its padding, and the phases (R141, R142, R152 to R160). -/

namespace Sys2Proof.Proofs

open Sys2Proof Sys2Proof.Machine Sys2Proof.Laws

/-! ### INIT (R141) -/

/-- Settles O16: INIT with no payload writes the initial context and one response; with a payload it only raises the error. -/
theorem initCommand : Obligations.InitCommand := by
  unfold Obligations.InitCommand
  exact fun s => ⟨⟨_, rfl, rfl, rfl, rfl, rfl, rfl, rfl, rfl, rfl, rfl, rfl⟩, fun _ hp => if_pos (mt List.length_eq_zero_iff.1 hp)⟩

/-! ### The padded buffer (R152, R153) -/

/-- The padding the engine writes is the padded buffer of R153. -/
theorem padBytes_eq_padded {c : Context} (hc : c.Inv) : padBytes c.buffered (totalBits c) = c.padded := by
  rw [padBytes, padZeros, inv_buffered_length hc]
  simp only [Nat.lt_succ_iff]
  rfl

theorem padded_length {c : Context} (hc : c.Inv) : c.padded.length = if c.bufLen.toNat ≤ 55 then 64 else 128 := by
  rw [← padBytes_eq_padded hc, padBytes_length _ (buffered_length_lt hc), paddedLen, inv_buffered_length hc]
  simp only [Nat.lt_succ_iff]

/-- Settles O22: the padding writes leave the cells of the padded buffer, from address 0. -/
theorem paddedBuffer : Obligations.PaddedBuffer := by
  unfold Obligations.PaddedBuffer
  intro c hc
  refine ⟨_, padBuffer_eq hc, ?_, ?_⟩
  · rw [cells_addrs, padBytes_eq_padded hc, padded_length hc, List.range_eq_range']
  · rw [cells_bytes, padBytes_eq_padded hc]
    rfl

/-! ### FINAL (R158, R160) -/

/-- Settles O23: FINAL with no payload answers the fold of the padded buffer and writes the initial context; with a payload it only
raises the error. -/
theorem finalCommand : Obligations.FinalCommand := by
  unfold Obligations.FinalCommand
  refine ⟨fun s hi => ?_, fun s p hp => if_pos (mt List.length_eq_zero_iff.1 hp)⟩
  obtain ⟨u, n, hfin⟩ := execFinal_eq hi
  rw [padBytes_eq_padded hi] at hfin
  refine ⟨_, hfin, padded_length hi, ?_, rfl, rfl, rfl, rfl, rfl, rfl, rfl, rfl⟩
  rw [respondOk_output, responseBytes_encodeState, ← List.append_assoc]

/-! ### The phases (R19, R142) -/

theorem phase_of_initial {c : Context} (h : c = Context.initial) : c.phase = .empty := if_pos h

theorem phase_of_ne_initial {c : Context} (h : c ≠ Context.initial) : c.phase = .buffering c.bufLen.toNat := if_neg h

theorem eq_initial_of_phase {c : Context} (h : c.phase = .empty) : c = Context.initial := by
  by_contra hne
  rw [phase_of_ne_initial hne] at h
  cases h

theorem bufLen_of_phase {c : Context} {k : Nat} (h : c.phase = .buffering k) : c.bufLen.toNat = k := by
  have hne : c ≠ Context.initial := fun heq => by rw [phase_of_initial heq] at h; cases h
  rw [phase_of_ne_initial hne] at h
  cases h
  rfl

/-- UPDATE leaves `BUFLEN` at the count of buffered and new bytes modulo 64 (R147). -/
theorem exec_update_bufLen (data : List Byte) {s : State} (hi : s.Inv) :
    ∃ t, exec (.update data) s = .next t ∧ t.ctx.bufLen.toNat = (s.ctx.bufLen.toNat + data.length) % 64 := by
  obtain ⟨t, ht, -, -, hlen, -⟩ := updateBlockwise s data _ _ hi rfl rfl
  exact ⟨t, ht, by rw [hlen, List.length_append, inv_buffered_length hi]⟩

/-- From the initial context an UPDATE of 1 to `LEN_MAX` bytes leaves another context: bytes in the buffer, or a bit count that is not
0. -/
theorem exec_update_from_initial {data : List Byte} {s : State} (hs : s.ctx = Context.initial) (hne : data ≠ [])
    (hmax : data.length ≤ Config.lenMax) :
    ∃ t, exec (.update data) s = .next t ∧ t.ctx ≠ Context.initial ∧ t.ctx.bufLen.toNat = data.length % 64 := by
  have hi : s.Inv := by rw [State.Inv, hs]; exact initial_inv
  have hd : data = s.ctx.buffered ++ data := by rw [hs]; rfl
  obtain ⟨t, ht, -, hbit, hlen, -⟩ := updateBlockwise s data data _ hi hd rfl
  refine ⟨t, ht, fun heq => ?_, hlen⟩
  have hpos := List.length_pos_iff.2 hne
  rw [heq] at hlen hbit
  rw [hs] at hbit
  have hbits := congrArg BitVec.toNat hbit
  simp only [initial_bitLen, initial_bufLen, BitVec.zero_add, BitVec.ofNat_eq_ofNat, BitVec.toNat_ofNat,
    Config.lenMax] at hbits hlen hmax
  omega

/-- Settles O25: UPDATE's `BUFLEN` is that of R147, INIT and FINAL write the initial context, a pure command keeps the context. -/
theorem phaseMoves : Obligations.PhaseMoves := by
  unfold Obligations.PhaseMoves
  intro s hi
  refine ⟨fun data hphase hmax => ?_, fun data k hphase => ?_, ⟨_, rfl, phase_of_initial rfl⟩, ?_, fun i hp => ?_⟩
  · by_cases hd : data = []
    · subst hd
      exact ⟨_, emptyUpdateChangesNothing s, by rw [if_pos rfl]; exact hphase⟩
    · obtain ⟨t, ht, hne, hlen⟩ := exec_update_from_initial (eq_initial_of_phase hphase) hd hmax
      exact ⟨t, ht, by rw [if_neg hd, phase_of_ne_initial hne, hlen]⟩
  · rw [← bufLen_of_phase hphase]
    exact exec_update_bufLen data hi
  · obtain ⟨u, n, hfin⟩ := execFinal_eq hi
    exact ⟨_, hfin, phase_of_initial rfl⟩
  · obtain ⟨t, ht, hctx⟩ := exec_pure_answers hp s
    exact ⟨t, ht, by rw [hctx]⟩

end Sys2Proof.Proofs
end

section
/-! PROOFS, family 43_streaming_hasher: UPDATE frames and a FINAL frame answer the SHA-256 digest of the message (R162). -/

namespace Sys2Proof.Proofs

open Sys2Proof Sys2Proof.Machine Sys2Proof.Laws

/-! ### The padded message (R105, R153, R162) -/

/-- `FOLD` over whole blocks, then over the rest. -/
theorem fold_append (q : Nat) (st : HashState) {xs : List Byte} (ys : List Byte) (hx : xs.length = 64 * q) :
    fold st (xs ++ ys) = fold (fold st xs) ys := by
  induction q generalizing st xs with
  | zero =>
    rw [List.length_eq_zero_iff.1 hx]
    rfl
  | succ q ih =>
    have hfirst : (xs.take 64).length = 64 := by rw [List.length_take]; omega
    have hrest : (xs.drop 64).length = 64 * q := by rw [List.length_drop]; omega
    rw [← List.take_append_drop 64 xs, List.append_assoc, fold_block_append _ _ hfirst, fold_block_append _ _ hfirst,
      ih _ hrest]

/-- The least count of zero bytes that pads a message is that of its unfilled block (R153). -/
theorem messageZeros_eq (n : Nat) : messageZeros n = padZeros (n % 64) := by
  unfold messageZeros padZeros
  split <;> omega

/-- The bits of the whole blocks and those of the unfilled block are the bits of the message (R152). -/
theorem bits_of_blocks (n : Nat) :
    BitVec.ofNat 64 (512 * (n / 64)) + BitVec.ofNat 64 (8 * (n % 64)) = BitVec.ofNat 64 (8 * n) := by
  rw [← BitVec.ofNat_add]
  congr 1
  omega

/-- The digest FINAL answers in a typed context, where an UPDATE of `m` stands before it. -/
def digestAfter (c : Hasher) (m : List Byte) : List Byte :=
  let u := ((Cmd.update m).run c).2
  encodeState (fold u.h (padBytes u.buf (u.bitLen + BitVec.ofNat 64 (8 * u.buf.length))))

/-- From the initial context that is the digest of the message: its whole blocks are folded by UPDATE, the padded rest by FINAL. -/
theorem digestAfter_initial (m : List Byte) : digestAfter Hasher.initial m = sha256 m := by
  have hhead : (m.take (64 * (m.length / 64))).length = 64 * (m.length / 64) := by rw [List.length_take]; omega
  have hrest : (m.drop (64 * (m.length / 64))).length = m.length % 64 := by rw [List.length_drop]; omega
  have hpad : padMessage m = m.take (64 * (m.length / 64)) ++
      padBytes (m.drop (64 * (m.length / 64))) (BitVec.ofNat 64 (8 * m.length)) := by
    rw [padBytes, hrest, ← messageZeros_eq, padMessage]
    simp only [← List.append_assoc, List.take_append_drop]
  rw [sha256, hpad, fold_append _ _ _ hhead, ← bits_of_blocks, ← hrest]
  simp [digestAfter, Cmd.run, Hasher.initial]

theorem digestAfter_append (xs ys : List Byte) {c : Hasher} (hc : c.buf.length < 64) :
    digestAfter c (xs ++ ys) = digestAfter ((Cmd.update xs).run c).2 ys := by
  rw [digestAfter, run_update_append xs ys hc, digestAfter]

/-! ### The frames, one step each -/

theorem ofFrame_update {p : List Byte} (hl : p.length ≤ Config.lenMax) : Cmd.ofFrame 0x02 p = .update p :=
  if_pos (Bool.and_eq_true_iff.2 ⟨decide_eq_true hl, rfl⟩)

/-- A step at an UPDATE frame takes the frame, answers OK and leaves the context the typed UPDATE says. -/
theorem step_update {s : State} {p rest : List Byte} (hi : s.Inv) (hp : s.resetPin = false)
    (hl : p.length ≤ Config.lenMax) (hin : s.input = encode (.update p) ++ rest) :
    ∃ t, step s = .next t ∧ t.Inv ∧ t.resetPin = false ∧ t.input = rest ∧
      t.output = s.output ++ [0x00, 0, 0, 0] ∧ t.ctx.typed = ((Cmd.update p).run s.ctx.typed).2 := by
  obtain ⟨t, ht, hrest, hpin, hout, htyped, -⟩ := stepMatchesTypedView s 0x02 p rest hi hp hl hin
  rw [ofFrame_update hl] at hout htyped
  exact ⟨t, ht, stepKeepsInvariant s t hi ht, hpin, hrest, hout, htyped⟩

/-- A step at a FINAL frame takes the frame, answers the digest and leaves the context initial. -/
theorem step_final {s : State} {rest : List Byte} (hi : s.Inv) (hp : s.resetPin = false)
    (hin : s.input = encode (.final []) ++ rest) :
    ∃ t, step s = .next t ∧ t.ctx = Context.initial ∧ t.input = rest ∧
      t.output = s.output ++ [0x00, 0, 0, 32] ++ digestAfter s.ctx.typed [] := by
  obtain ⟨t, ht, hrest, -, hout, htyped, -⟩ := stepMatchesTypedView s 0x03 [] rest hi hp (Nat.zero_le _) hin
  refine ⟨t, ht, ctx_eq_of_typed (stepKeepsInvariant s t hi ht) initial_inv htyped, hrest, ?_⟩
  rw [hout, digestAfter, run_update_nil (c := s.ctx.typed) (buffered_length_lt hi), List.append_assoc,
    ← responseBytes_encodeState]
  rfl

theorem steps_succ {s t : State} (n : Nat) (h : step s = .next t) : steps (n + 1) s = steps n t := by
  rw [steps, h]

/-- From any state with the invariant, UPDATE frames and a FINAL frame answer the digest of the context with all payloads behind it. -/
theorem steps_updates_final (chunks : List (List Byte)) {s : State} {rest : List Byte} (hi : s.Inv)
    (hp : s.resetPin = false) (hl : ∀ c ∈ chunks, c.length ≤ Config.lenMax)
    (hin : s.input = (chunks.map fun c => encode (.update c)).flatten ++ encode (.final []) ++ rest) :
    ∃ t, steps (chunks.length + 1) s = .next t ∧ t.ctx = Context.initial ∧ t.input = rest ∧
      t.output = s.output ++ (List.replicate chunks.length [0x00, 0, 0, 0]).flatten ++ [0x00, 0, 0, 32] ++
        digestAfter s.ctx.typed chunks.flatten := by
  induction chunks generalizing s with
  | nil =>
    obtain ⟨t, ht, hctx, hrest, hout⟩ := step_final hi hp hin
    exact ⟨t, steps_succ 0 ht, hctx, hrest, by simpa using hout⟩
  | cons c cs ih =>
    rw [List.forall_mem_cons] at hl
    rw [List.map_cons, List.flatten_cons, List.append_assoc, List.append_assoc] at hin
    obtain ⟨u, hu, hui, hup, huin, huout, hutyped⟩ := step_update hi hp hl.1 hin
    obtain ⟨t, ht, hctx, hrest, hout⟩ := ih hui hup hl.2 (by rw [huin, List.append_assoc])
    refine ⟨t, (steps_succ _ hu).trans ht, hctx, hrest, ?_⟩
    rw [hout, huout, hutyped, List.flatten_cons, digestAfter_append c cs.flatten (c := s.ctx.typed) (buffered_length_lt hi),
      List.length_cons, List.replicate_succ, List.flatten_cons, ← List.append_assoc]

/-! ### The count of zero bytes, and the known answers (R162) -/

/-- The zero bytes complete a block, no smaller count does, and the count is that of the message's last block. -/
theorem messageZeros_least (n : Nat) : (n + 1 + messageZeros n + 8) % 64 = 0 ∧
    (∀ k : Nat, (n + 1 + k + 8) % 64 = 0 → messageZeros n ≤ k) ∧
    messageZeros n = if n % 64 ≤ 55 then 55 - n % 64 else 119 - n % 64 := by
  unfold messageZeros
  refine ⟨by omega, fun k hk => by omega, ?_⟩
  split <;> omega

theorem sha256_empty : sha256 [] =
    [0xe3, 0xb0, 0xc4, 0x42, 0x98, 0xfc, 0x1c, 0x14, 0x9a, 0xfb, 0xf4, 0xc8, 0x99, 0x6f, 0xb9, 0x24,
     0x27, 0xae, 0x41, 0xe4, 0x64, 0x9b, 0x93, 0x4c, 0xa4, 0x95, 0x99, 0x1b, 0x78, 0x52, 0xb8, 0x55] := by
  decide +kernel

theorem sha256_abc : sha256 [0x61, 0x62, 0x63] =
    [0xba, 0x78, 0x16, 0xbf, 0x8f, 0x01, 0xcf, 0xea, 0x41, 0x41, 0x40, 0xde, 0x5d, 0xae, 0x22, 0x23,
     0xb0, 0x03, 0x61, 0xa3, 0x96, 0x17, 0x7a, 0x9c, 0xb4, 0x10, 0xff, 0x61, 0xf2, 0x00, 0x15, 0xad] := by
  decide +kernel

/-- Settles O24: one step for each frame, the typed UPDATEs join to one of the whole message, and FINAL's digest after it is that of the
padded message. -/
theorem messageDigest : Obligations.MessageDigest := by
  unfold Obligations.MessageDigest
  refine ⟨fun s chunks rest hs hp hl _ hin => ?_, fun _ => rfl, messageZeros_least, sha256_empty, sha256_abc⟩
  have hi : s.Inv := by rw [State.Inv, hs]; exact initial_inv
  obtain ⟨t, ht, hctx, hrest, hout⟩ := steps_updates_final chunks hi hp hl hin
  rw [hs, initial_typed, digestAfter_initial] at hout
  exact ⟨t, ht, hctx, hrest, hout⟩

end Sys2Proof.Proofs
end

section
/-! PROOFS, family 44_digest_encoding: ENCODE and DECODE_STATE byte by byte (R166, R167), and the HEX command (R169 to R172). -/

namespace Sys2Proof.Proofs

open Sys2Proof Sys2Proof.Machine Sys2Proof.Laws

/-! ### ENCODE and DECODE_STATE (R166, R167) -/

/-- Byte `k` of a word, most significant first, is eight bits of it (R43). -/
theorem byteAt_toBe32 (w : Word) {k : Nat} (hk : k < 4) : byteAt (toBe32 w) k = w.extractLsb' (24 - 8 * k) 8 := by
  interval_cases k <;> rfl

theorem stateAt_getElem (p : List Byte) (off : Nat) {j : Nat} (hj : j < 8) :
    (stateAt p off)[j] = wordAt p (off + 4 * j) :=
  Vector.getElem_ofFn hj

/-- The word read at offset `4j` of an encoded State is its word `j`. -/
theorem wordAt_encodeState (st : HashState) {j : Nat} (hj : j < 8) : wordAt (encodeState st) (4 * j) = st[j] := by
  have hbyte (k : Nat) : k < 4 → byteAt (encodeState st) (4 * j + k) = byteAt (toBe32 st[j]) k := byteAt_encodeState st hj
  have hfirst : byteAt (encodeState st) (4 * j) = byteAt (toBe32 st[j]) 0 := hbyte 0 (by decide)
  rw [wordAt, hfirst, hbyte 1 (by decide), hbyte 2 (by decide), hbyte 3 (by decide)]
  exact be32_split st[j]

/-- `DECODE_STATE` undoes `ENCODE` (R167). -/
theorem stateAt_encodeState (st : HashState) : stateAt (encodeState st) 0 = st := by
  ext1 j hj
  rw [stateAt_getElem _ _ hj, Nat.zero_add, wordAt_encodeState st hj]

/-- `ENCODE` undoes `DECODE_STATE`, because byte `n` of both is byte `n % 4` of word `n / 4` (R167). -/
theorem encodeState_stateAt {p : List Byte} (hp : p.length = 32) : encodeState (stateAt p 0) = p := by
  refine List.ext_getElem ((encodeState_length _).trans hp.symm) fun n hn hnp => ?_
  have hword : n / 4 < 8 := by omega
  have hbyte : n % 4 < 4 := by omega
  calc (encodeState (stateAt p 0))[n]
    _ = byteAt (encodeState (stateAt p 0)) (4 * (n / 4) + n % 4) := by rw [Nat.div_add_mod, byteAt_eq_getElem hn]
    _ = byteAt p (0 + 4 * (n / 4) + n % 4) := by
      rw [byteAt_encodeState _ hword hbyte, stateAt_getElem _ _ hword, byteAt_toBe32_wordAt _ _ hbyte]
    _ = p[n] := by rw [Nat.zero_add, Nat.div_add_mod, byteAt_eq_getElem hnp]

/-- Settles O33: the bytes of each word in their place, and both round trips. -/
theorem encodeAndDecodeState : Obligations.EncodeAndDecodeState := by
  unfold Obligations.EncodeAndDecodeState
  exact ⟨fun st => ⟨encodeState_length st,
    fun _ _ hj hk => (byteAt_encodeState st hj hk).trans (byteAt_toBe32 _ hk), stateAt_encodeState st⟩,
    fun _ => encodeState_stateAt⟩

/-! ### The hexadecimal characters (R169, R170) -/

/-- Up to 9 the character is a decimal digit's, counted from `0x30` (R170). -/
theorem hexChar_toNat_digit {v : BitVec 4} (hv : v.toNat ≤ 9) : (hexChar v).toNat = 0x30 + v.toNat := by
  rw [hexChar, if_pos (by omega), BitVec.toNat_ofNat]
  omega

/-- From 10 the character is a lowercase letter, counted from `0x61` (R170). -/
theorem hexChar_toNat_letter {v : BitVec 4} (hv : 10 ≤ v.toNat) : (hexChar v).toNat = 0x61 + (v.toNat - 10) := by
  have hlt : v.toNat < 16 := v.isLt
  rw [hexChar, if_neg (by omega), BitVec.toNat_ofNat]
  omega

theorem digestAt_getElem (p : List Byte) (off : Nat) {i : Nat} (hi : i < 32) :
    (digestAt p off)[i] = byteAt p (off + i) :=
  Vector.getElem_ofFn hi

@[simp] theorem hexByte_length (b : Byte) : (hexByte b).length = 2 := rfl

/-- Characters `2i` and `2i + 1` of the hexadecimal view are those of byte `i` of the digest (R169). -/
theorem byteAt_hexStr (d : Digest) {i k : Nat} (hi : i < 32) (hk : k < 2) :
    byteAt (hexStr d) (2 * i + k) = byteAt (hexByte d[i]) k := by
  rw [hexStr, byteAt_flatMap hexByte_length hk _ (by simpa using hi), Vector.getElem_toList]

/-! ### The command (R172) -/

/-- With 32 bytes HEX answers their hexadecimal view. -/
theorem exec_hex {p : List Byte} (hp : p.length = 32) (s : State) :
    exec (.hex p) s = .next (respondOk (hexStr (digestAt p 0)) s) :=
  if_neg (not_not_intro hp)

/-- A response OK with a hexadecimal view has the header `00 00 00 40` (R66). -/
theorem responseBytes_hexStr (d : Digest) : responseBytes okCode (hexStr d) = [0x00, 0, 0, 64] ++ hexStr d := by
  rw [responseBytes, hexStr_length]
  rfl

/-- Both characters of byte `i` of a payload, high four bits first (R169). -/
theorem byteAt_hexStr_digestAt (p : List Byte) {i : Nat} (hi : i < 32) :
    byteAt (hexStr (digestAt p 0)) (2 * i) = hexChar ((byteAt p i).extractLsb' 4 4) ∧
    byteAt (hexStr (digestAt p 0)) (2 * i + 1) = hexChar ((byteAt p i).extractLsb' 0 4) := by
  have hchar : ∀ k < 2, byteAt (hexStr (digestAt p 0)) (2 * i + k) = byteAt (hexByte (byteAt p i)) k := fun k hk => by
    rw [byteAt_hexStr _ hi hk, digestAt_getElem _ _ hi, Nat.zero_add]
  exact ⟨hchar 0 (by decide), hchar 1 (by decide)⟩

/-- Settles O32: with 32 bytes the response is their hexadecimal view and nothing else is touched; with any other length the error is
raised; the characters are a digit or a letter. -/
theorem hexCommand : Obligations.HexCommand := by
  unfold Obligations.HexCommand
  refine fun p s => ⟨fun hp => ⟨_, hexStr (digestAt p 0), exec_hex hp s, ?_, hexStr_length _,
    fun _ hi => byteAt_hexStr_digestAt p hi, rfl, rfl, rfl, rfl, rfl, rfl⟩, fun hp => if_pos hp,
    fun _ => ⟨hexChar_toNat_digit, hexChar_toNat_letter⟩⟩
  rw [respondOk_output, responseBytes_hexStr, List.append_assoc]

end Sys2Proof.Proofs
end

section
/-! PROOFS, family 60_exceptions: no stop (R176), the order of the checks and what an error changes (R181, R182), instances (R196). -/

namespace Sys2Proof.Proofs

open Sys2Proof Sys2Proof.Machine Sys2Proof.Laws

/-! ### The engine never stops (R73, R176) -/

/-- Settles O46: the input holds a part of a frame, at which the step waits, or a complete frame, which is answered by a response. -/
theorem engineNeverStops : Obligations.EngineNeverStops := by
  unfold Obligations.EngineNeverStops
  intro s hi
  cases hp : s.resetPin with
  | true => exact ⟨_, step_of_reset hp⟩
  | false =>
    have answered {opc : Byte} {p rest : List Byte} (hl : p.length ≤ Config.lenMax)
        (hin : s.input = frameBytes opc p ++ rest) : ∃ t, step s = .next t := by
      obtain ⟨t, -, -, ht, -⟩ := oneResponsePerFrame s opc p rest hi hp hl hin
      exact ⟨t, ht⟩
    obtain ⟨i, rest, -, hin, he⟩ | ⟨opc, p, rest, -, hin, hl, -⟩ | ⟨k, hd, -⟩ := decodeIsUnambiguous s.input
    · exact answered (of_decide_eq_true he) hin
    · exact answered hl hin
    · exact ⟨s, step_of_wait hp hd⟩

/-! ### The checks of a frame (R181, R182) -/

theorem requiredLen_eq_fixedLen (i : Instr) : i.format.requiredLen = fixedLen i.opcode := by
  cases i <;> rfl

/-- A command that a frame can carry is well formed exactly when it has the length its opcode fixes, if it fixes one. -/
theorem wellFormed_iff_fixedLen {i : Instr} (he : i.encodable = true) :
    i.wellFormed = true ↔ ∀ n, fixedLen i.opcode = some n → i.payload.length = n := by
  rw [← requiredLen_eq_fixedLen, Instr.wellFormed, he, Bool.true_and]
  cases i.format.requiredLen with
  | none => simp
  | some n => simp

theorem mem_assigned_of_fixedLen {opc : Byte} {n : Nat} (h : fixedLen opc = some n) : opc ∈ assignedOpcodes := by
  by_contra hopc
  simp_all [assignedOpcodes, fixedLen]

/-- The error of a wrong length, by the opcode (R178, R179). -/
theorem malformedError_code_of_assigned {opc : Byte} (h : opc ∈ assignedOpcodes) :
    (malformedError opc).code = if opc = 0x11 ∨ opc = 0x13 then 0x02 else 0x04 := by
  have hsome : (ofOpcode opc []).isNone = false := by
    rw [Option.isNone_eq_false_iff, Option.isSome_iff_ne_none, Ne, ofOpcode_eq_none_iff]
    exact not_not.2 h
  rw [malformedError, if_neg (by simp [hsome]), apply_ite Error.code]
  rfl

section
variable {s : State} {opc : Byte} {payload rest : List Byte} (hp : s.resetPin = false)
  (hl : payload.length ≤ Config.lenMax) (hin : s.input = frameBytes opc payload ++ rest)
include hp hl hin

/-- The first check of a frame: a reserved opcode raises `IllegalCommand`. -/
theorem step_reserved_frame (h : opc ∉ assignedOpcodes) :
    step s = .next (raise .illegalCommand { s with input := rest }) :=
  step_of_reserved hp (hin ▸ decode_frame_reserved rest hl ((ofOpcode_eq_none_iff opc payload).2 h))

/-- Past the first check, the frame is a command with this opcode and payload, and the step runs it behind the frame. -/
theorem step_assigned_frame (h : opc ∈ assignedOpcodes) :
    ∃ i, i.opcode = opc ∧ i.payload = payload ∧ i.encodable = true ∧ step s = exec i { s with input := rest } := by
  obtain ⟨i, hi⟩ := Option.ne_none_iff_exists'.1 fun hn => (ofOpcode_eq_none_iff opc payload).1 hn h
  obtain ⟨hopc, hpay⟩ := ofOpcode_some hi
  have he : i.encodable = true := decide_eq_true (hpay ▸ hl)
  exact ⟨i, hopc, hpay, he, step_of_command hp (hin ▸ decode_frame_command rest hl hi)⟩

/-- The second check of a frame: a length that the opcode does not allow raises the error of that opcode. -/
theorem step_wrong_length {n : Nat} (hn : fixedLen opc = some n) (hne : payload.length ≠ n) :
    step s = .next (raise (malformedError opc) { s with input := rest }) := by
  obtain ⟨i, rfl, rfl, he, hstep⟩ := step_assigned_frame hp hl hin (mem_assigned_of_fixedLen hn)
  have hw : i.wellFormed = false :=
    Bool.eq_false_iff.2 fun hw => hne ((wellFormed_iff_fixedLen he).1 hw n hn)
  exact hstep.trans (exec_illFormed _ he hw)

/-- A frame that passes both checks answers OK. -/
theorem step_checked_frame (hi : s.Inv) (h : opc ∈ assignedOpcodes)
    (hlen : ∀ n, fixedLen opc = some n → payload.length = n) :
    ∃ t bytes, step s = .next t ∧ t.output = s.output ++ responseBytes okCode bytes := by
  obtain ⟨i, rfl, rfl, he, hstep⟩ := step_assigned_frame hp hl hin h
  obtain ⟨t, ht, hv, -⟩ :=
    exec_answersAs (s := { s with input := rest }) hi ((wellFormed_iff_fixedLen he).2 hlen)
  obtain ⟨bytes, hok, -⟩ := run_ofOperands_ok i s.ctx.typed
  refine ⟨t, bytes, hstep.trans ht, ?_⟩
  rw [show t.output = _ from congrArg Visible.output hv, hok]
  rfl

end

/-- An error writes its status and three zero bytes behind the earlier responses and changes nothing else (R182). -/
theorem raise_eq (e : Error) (s : State) : raise e s = { s with output := s.output ++ [e.code, 0, 0, 0] } := by
  rw [raise, emit, responseBytes_error]

/-- Settles O40: one clause for each check that can fail, in order, and one for a frame that passes both. -/
theorem headerChecks : Obligations.HeaderChecks := by
  unfold Obligations.HeaderChecks
  intro s opc payload rest hi hp hl hin
  refine ⟨fun h => ?_, fun n hn hne => ?_, step_checked_frame hp hl hin hi⟩
  · rw [step_reserved_frame hp hl hin h, raise_eq]
    rfl
  · rw [step_wrong_length hp hl hin hn hne, raise_eq,
      malformedError_code_of_assigned (mem_assigned_of_fixedLen hn)]

/-! ### Instances (R196) -/

theorem tickEngine_engine_self (y : System) (j : Nat) : (y.tickEngine j).engines[j]? = y.engines[j]?.map tick := by
  simp [System.tickEngine]

/-- A step of one engine leaves every other engine as it was (R9, R57). -/
theorem tickEngine_engine_ne (y : System) {i j : Nat} (h : i ≠ j) : (y.tickEngine i).engines[j]? = y.engines[j]? := by
  simp [System.tickEngine, h]

/-- Settles O49, by induction on the schedule: its first step is engine `j`'s own, or leaves engine `j` as it was. -/
theorem instancesAreIndependent : Obligations.InstancesAreIndependent := by
  unfold Obligations.InstancesAreIndependent
  intro schedule y j
  induction schedule generalizing y with
  | nil => exact Option.map_id_apply.symm
  | cons i is ih =>
    rw [System.run, ih]
    by_cases h : i = j
    · subst h
      rw [tickEngine_engine_self, List.count_cons_self, Option.map_map]
      rfl
    · rw [tickEngine_engine_ne y h, List.count_cons_of_ne h]

end Sys2Proof.Proofs
end

section
/-! PROOFS, family 70_reset_and_hazards: the reset input (R200), and that bytes sent ahead and responses not yet taken change nothing
of what a step does (R52, R210). -/

namespace Sys2Proof.Proofs

open Sys2Proof Sys2Proof.Machine Sys2Proof.Laws

/-! ### The reset input (R200) -/

/-- Settles O44: the step samples the reset input first, and a reset reads neither the context nor the streams. -/
theorem resetInput : Obligations.ResetInput := by
  unfold Obligations.ResetInput
  intro s
  exact ⟨applyReset (assertReset s), step_of_reset (assertReset_resetPin s), rfl, rfl, rfl, rfl, rfl, rfl, rfl⟩

/-! ### The engine with other bytes in its streams

No unit reads a stream, so each commutes with the exchange of both. -/

/-- The state with other bytes in the two streams. -/
def withStreams (inp out : List Byte) (s : State) : State := { s with input := inp, output := out }

@[simp] theorem withStreams_ctx (inp out : List Byte) (s : State) : (withStreams inp out s).ctx = s.ctx := rfl

theorem hostWrite_eq_withStreams (bs : List Byte) (s : State) :
    hostWrite bs s = withStreams (s.input ++ bs) s.output s := rfl

theorem hostRead_eq_withStreams (n : Nat) (s : State) :
    (hostRead n s).2 = withStreams s.input (s.output.drop n) s := rfl

/-- A result with the state left behind it, the streams of that state exchanged. -/
def answerWithStreams {α : Type} (inp out : List Byte) (r : α × State) : α × State :=
  (r.1, withStreams inp out r.2)

theorem runScalar_withStreams (st : HashState) (b : Block) (inp out : List Byte) (s : State) :
    runScalar st b (withStreams inp out s) = answerWithStreams inp out (runScalar st b s) := by
  rw [runScalar_eq, runScalar_eq]
  rfl

theorem runTranspose_withStreams (m : Matrix) (inp out : List Byte) (s : State) :
    runTranspose m (withStreams inp out s) = answerWithStreams inp out (runTranspose m s) := by
  rw [runTranspose_eq, runTranspose_eq]
  rfl

theorem runVector_withStreams (sts : Vector HashState 8) (bs : Vector Block 8) (inp out : List Byte) (s : State) :
    runVector sts bs (withStreams inp out s) = answerWithStreams inp out (runVector sts bs s) := by
  rw [runVector_eq, runVector_eq]
  rfl

theorem transformAt_withStreams (h : HashState) (m : Memory) (a : Nat) (inp out : List Byte) (s : State) :
    transformAt h m a (withStreams inp out s) = (transformAt h m a s).map (answerWithStreams inp out) := by
  unfold transformAt
  cases memRead m a 64 with
  | error f => rfl
  | ok bs => exact congrArg Except.ok (runScalar_withStreams h _ inp out s)

theorem finalTransforms_withStreams (h : HashState) (m : Memory) (p : Nat) (inp out : List Byte) (s : State) :
    finalTransforms h m p (withStreams inp out s) = (finalTransforms h m p s).map (answerWithStreams inp out) := by
  unfold finalTransforms
  rw [transformAt_withStreams]
  cases transformAt h m 0 s with
  | error f => rfl
  | ok r =>
    by_cases hp : p = 128
    · simpa [hp, Except.map, answerWithStreams] using transformAt_withStreams r.1 m 64 inp out r.2
    · simp [hp, Except.map, answerWithStreams]

theorem absorb_withStreams (x : Byte) (inp out : List Byte) (s : State) :
    absorb x (withStreams inp out s) = (absorb x s).map (withStreams inp out) := by
  unfold absorb
  rw [withStreams_ctx]
  cases memWrite s.ctx.mem s.ctx.bufLen.toNat [x] with
  | error f => rfl
  | ok mem =>
    by_cases h64 : s.ctx.bufLen + 1 = 64
    · simp only [if_pos h64, transformAt_withStreams]
      cases transformAt s.ctx.h mem 0 s with
      | error f => rfl
      | ok r => rfl
    · simp only [if_neg h64]
      rfl

theorem absorbAll_withStreams (xs : List Byte) (inp out : List Byte) (s : State) :
    absorbAll xs (withStreams inp out s) = (absorbAll xs s).map (withStreams inp out) := by
  induction xs generalizing s with
  | nil => rfl
  | cons x xs ih =>
    rw [absorbAll, absorbAll, absorb_withStreams]
    cases absorb x s with
    | error f => rfl
    | ok t => exact ih t

/-! ### Commands

What a command writes behind the earlier responses depends on neither stream, and it leaves the input alone. -/

/-- When the run answers a state, it answers that state over any streams: the same input, and one response behind the output. -/
def RespondsBehind (run : State → Host.Outcome State Fault Refusal) : Prop :=
  ∀ s t, run s = .next t → ∃ resp, ∀ inp out,
    run (withStreams inp out s) = .next (withStreams inp (out ++ resp) t)

/-- A command that runs a unit and responds with its result. -/
theorem respondsBehind_emit {α : Type} (status : Byte) (enc : α → List Byte) {run : State → α × State}
    (hrun : ∀ inp out s, run (withStreams inp out s) = answerWithStreams inp out (run s)) :
    RespondsBehind fun s => .next (emit status (enc (run s).1) (run s).2) := by
  intro s t h
  cases h
  refine ⟨responseBytes status (enc (run s).1), fun inp out => ?_⟩
  simp only [hrun]
  rfl

/-- An error response touches the output only (R182). -/
theorem respondsBehind_raise (e : Error) : RespondsBehind fun s => .next (raise e s) :=
  respondsBehind_emit e.code (fun bytes => bytes) (run := fun s => ([], s)) fun _ _ _ => rfl

/-- A command that checks its payload's length first (R181). -/
theorem respondsBehind_checked (c : Prop) [Decidable c] (e : Error) {run : State → Host.Outcome State Fault Refusal}
    (hrun : RespondsBehind run) : RespondsBehind fun s => if c then .next (raise e s) else run s := by
  by_cases hc : c
  · simpa only [if_pos hc] using respondsBehind_raise e
  · simpa only [if_neg hc] using hrun

theorem execUpdate_respondsBehind (p : List Byte) : RespondsBehind (execUpdate p) := by
  intro s t h
  obtain ⟨u, hu, rfl⟩ := execUpdate_cases h
  refine ⟨responseBytes okCode [], fun inp out => ?_⟩
  rw [execUpdate, absorbAll_withStreams, hu]
  rfl

theorem execFinal_respondsBehind (p : List Byte) : RespondsBehind (execFinal p) := by
  refine respondsBehind_checked _ _ fun s t h => ?_
  cases hm : padBuffer s.ctx with
  | error f => simp [hm] at h
  | ok mem =>
    cases hr : finalTransforms s.ctx.h mem (paddedLen s.ctx.bufLen.toNat) s with
    | error f => simp [hm, hr] at h
    | ok r =>
      simp only [hm, hr] at h
      cases h
      refine ⟨responseBytes okCode (encodeState r.1), fun inp out => ?_⟩
      simp only [withStreams_ctx, hm, finalTransforms_withStreams, hr]
      rfl

theorem exec_respondsBehind (i : Instr) : RespondsBehind (exec i) := by
  cases i with
  | init p =>
    exact respondsBehind_checked _ _ (respondsBehind_emit _ (fun bytes => bytes)
      (run := fun s => ([], { s with ctx := Context.initial })) fun _ _ _ => rfl)
  | update p => exact execUpdate_respondsBehind p
  | final p => exact execFinal_respondsBehind p
  | xform p =>
    exact respondsBehind_checked _ _ (respondsBehind_emit _ encodeState (runScalar_withStreams _ _))
  | xform8 p =>
    exact respondsBehind_checked _ _ (respondsBehind_emit _ encodeStates (runVector_withStreams _ _))
  | trn p =>
    exact respondsBehind_checked _ _ (respondsBehind_emit _ encodeMatrix (runTranspose_withStreams _))
  | batch8 p =>
    exact respondsBehind_checked _ _ (respondsBehind_emit _ encodeStates (runVector_withStreams _ _))
  | hex p =>
    exact respondsBehind_checked _ _ (respondsBehind_emit _ hexStr
      (run := fun s => (digestAt p 0, s)) fun _ _ _ => rfl)

/-! ### The step at a complete frame (R52, R210) -/

/-- The frame at the front of a stream fixes what the step runs and what it leaves of the input, whatever stands behind the frame. -/
theorem step_of_complete_frame {inp : List Byte} (hw : ∀ k, decode inp ≠ .wait k) :
    ∃ rest run, RespondsBehind run ∧ ∀ (s : State) (bs : List Byte), s.resetPin = false → s.input = inp ++ bs →
      step s = run { s with input := rest ++ bs } := by
  obtain ⟨i, rest, -, rfl, he⟩ | ⟨opc, p, rest, hd, rfl, hl, hopc⟩ | ⟨k, hk, -⟩ := decodeIsUnambiguous inp
  · refine ⟨rest, exec i, exec_respondsBehind i, fun s bs hp hin => step_of_command hp ?_⟩
    rw [hin, List.append_assoc]
    exact decodeEncode i (rest ++ bs) he
  · refine ⟨rest, _, respondsBehind_raise .illegalCommand, fun s bs hp hin => step_reserved_frame hp hl ?_ hopc⟩
    rw [hin, List.append_assoc]
  · exact absurd hk (hw k)

/-- A step that answers a frame takes the same frame whatever stands behind it in the input, and writes the same response whatever
stands before it in the output. -/
theorem step_withStreams {s t : State} (hp : s.resetPin = false) (hw : ∀ k, decode s.input ≠ .wait k)
    (h : step s = .next t) :
    ∃ resp, t.output = s.output ++ resp ∧ ∀ bs out,
      step (withStreams (s.input ++ bs) out s) = .next (withStreams (t.input ++ bs) (out ++ resp) t) := by
  obtain ⟨rest, run, hrun, hstep⟩ := step_of_complete_frame hw
  have hran : run { s with input := rest ++ [] } = .next t := (hstep s [] hp (List.append_nil _).symm).symm.trans h
  obtain ⟨resp, hresp⟩ := hrun _ t hran
  have ht : t = withStreams (rest ++ []) (s.output ++ resp) t :=
    Host.Outcome.next.inj (hran.symm.trans (hresp (rest ++ []) s.output))
  have hin : t.input = rest := (congrArg State.input ht).trans (List.append_nil rest)
  refine ⟨resp, congrArg State.output ht, fun bs out => ?_⟩
  rw [hin]
  exact (hstep (withStreams (s.input ++ bs) out s) bs hp rfl).trans (hresp (rest ++ bs) out)

/-- Settles O48: the host's write changes only what stands behind the frame, and its read only what stands before the response. -/
theorem sendingAhead : Obligations.SendingAhead := by
  unfold Obligations.SendingAhead
  intro s t hp hw h
  obtain ⟨resp, hout, hstep⟩ := step_withStreams hp hw h
  refine ⟨fun bs => ?_, fun n hn => ?_⟩
  · rw [hostWrite_eq_withStreams, hostWrite_eq_withStreams, hout]
    exact hstep bs s.output
  · rw [hostRead_eq_withStreams, hostRead_eq_withStreams, hout, List.drop_append_of_le_length hn]
    simpa using hstep [] (s.output.drop n)

end Sys2Proof.Proofs
end
